-- ==== Sys2Proof/Word.lean ====
section
/-! DEFINITION. The bit-vector types of the block: the three data widths the document fixes (spec/00_scope.md R7) and the
12-bit event word (spec/30_encoding.md R44). No value is wider and no two registers are reached as one (R32). -/
namespace Sys2Proof

/-- RawSample: 8 bits, unsigned, every code legal (R40). -/
abbrev Sample := BitVec 8

/-- The 2-bit direction field; bit 0 is the Forward line, bit 1 the Reverse line (R12, R41). -/
abbrev DirField := BitVec 2

/-- The 8-bit PWM duty value (R13, R42). -/
abbrev Duty := BitVec 8

/-- One operation of a trace: `op` in bits 11:8, `arg` in bits 7:0 (R44). -/
abbrev EventWord := BitVec 12

end Sys2Proof
end

