-- ==== Sys2Proof/Config.lean ====
section
/-! DEFINITION. What one implementation of the block fixes (spec/00_scope.md R7), and the values the spec leaves open, which are
constants with no body. -/
namespace Sys2Proof

/-- What a period-elapsed service does while a conversion is unserviced: `RETRIGGER_POLICY` (R7, R74). -/
inductive RetriggerPolicy where
  | drop
  | defer
  | restart
deriving DecidableEq, Repr

/-- Which source the arbiter takes when both wait: `ARB_ORDER` (R7, R107). -/
inductive ArbOrder where
  | timerFirst
  | adcFirst
  | either
deriving DecidableEq, Repr

/-- The two services of the one handler context (R101): SVCT and SVCA. -/
inductive Service where
  | timer
  | adc
deriving DecidableEq, Repr, Inhabited

/-- The implementation parameters of R7, fixed for the life of a run. -/
structure Params where
  /-- RETRIGGER_POLICY -/
  policy : RetriggerPolicy
  /-- ARB_ORDER -/
  order : ArbOrder
  /-- SAMPLING_PERIOD, "timer compare value": no rule reads it (R7, R112). -/
  samplingPeriod : Nat
  /-- PWM_PERIOD, at least 1: only the waveform rules R93 to R96 read it. -/
  pwmPeriod : Nat
deriving DecidableEq, Repr

namespace Config

/-- FREE VALUE (log 2). The `k`-th "unspecified" value of ADRES: what the register holds after a RESET, a value no claim may
rely on (R24, R120). -/
opaque unspecifiedAdres : Nat → Sample

/-- FREE VALUE (log 3). The `k`-th choice of the arbiter when both sources are serviceable and ARB_ORDER is Either: the
relation contains both steps (R105, R107). -/
opaque arbiterPicks : Nat → Service

/-- OPEN (log 7). SAMPLING_PERIOD less one: a positive count (R7). -/
opaque samplingPeriodPred : Nat

/-- OPEN (log 7). PWM_PERIOD less one: an integer of at least 1 (R7, R93). -/
opaque pwmPeriodPred : Nat

/-- The parameters of the block as the spec decides them: `Drop` and `Either`, both periods OPEN (R7; log 7, log 8). -/
def params : Params where
  policy := .drop
  order := .either
  samplingPeriod := samplingPeriodPred + 1
  pwmPeriod := pwmPeriodPred + 1

end Config
end Sys2Proof
end

