-- ==== Sys2Proof/Machine/Operands.lean ====
section
/-! DEFINITION. The fields of the event word and the one operand form there is (spec/30_encoding.md R44, R46). -/
namespace Sys2Proof.Machine

/-- `op`, bits 11:8 (R44). -/
def opField (w : EventWord) : BitVec 4 := w.extractLsb' 8 4

/-- `arg`, bits 7:0 (R44). -/
def argField (w : EventWord) : BitVec 8 := w.extractLsb' 0 8

/-- The operand `v` of DONE: `word[7:0]` as it stands, no sign extension, no scaling, no shift (R46). -/
def sampleOperand (w : EventWord) : Sample := argField w

/-- The word with the given `op` and `arg`, `op` in the more significant bits (R44). -/
def packWord (op : BitVec 4) (arg : BitVec 8) : EventWord := op ++ arg

end Sys2Proof.Machine
end

