-- ==== Sys2Proof/Syntax.lean ====
section
/-! DEFINITION. The nine operations of spec/opcode_table.json (spec/30_encoding.md R45), one constructor per row. -/
namespace Sys2Proof

/-- One operation of a trace. Only `done` has an operand: the RawSample the conversion produced, 8 bits, used as it stands
(R46). -/
inductive Instr where
  /-- IDLE: one turn of the parked background loop (R79). -/
  | idle
  /-- TICK: the timer's period has elapsed (R71). -/
  | tick
  /-- DONE v: the converter has produced RawSample v (R72). -/
  | done (v : Sample)
  /-- SVCT: service the period-elapsed event (R73, R74). -/
  | svct
  /-- SVCA: service the conversion-complete event (R75). -/
  | svca
  /-- SVC: the Handler runs and services one source (R105). -/
  | svc
  /-- ARM: configuration is finished, both sources are enabled (R122). -/
  | arm
  /-- PWMCK: one count of the PWM time base (R94). -/
  | pwmck
  /-- RESET: every register at its reset value (R120). -/
  | reset
deriving DecidableEq, Repr

end Sys2Proof
end

