-- ==== Sys2Proof/Decode.lean ====
section
/-! DEFINITION. Event words to operations and back (spec/30_encoding.md R44 to R48, R52). The decoder is total; its verdict on a
word that encodes no operation is `invalid`, with the clause of R47 that makes it so. -/
namespace Sys2Proof
open Machine

/-- Why a word is invalid: the two clauses of R47. -/
inductive InvalidWord where
  /-- R47 (a): `op` is one of `1000` to `1110`, whatever `arg` is. -/
  | reservedOp
  /-- R47 (b): the operation has no operand and `arg` is not zero. -/
  | nonZeroArg
deriving DecidableEq, Repr

/-- The decoder's verdict (R47, R52). -/
inductive Verdict where
  | operation (i : Instr)
  | invalid (why : InvalidWord)
deriving DecidableEq, Repr

/-- An operation without operand: `arg` must be zero (R44, R47 (b)). -/
def withoutOperand (w : EventWord) (i : Instr) : Verdict :=
  if argField w = 0 then .operation i else .invalid .nonZeroArg

/-- The decoder: one operation or `invalid` for every 12-bit word (R45, R47, R52). -/
def decode (w : EventWord) : Verdict :=
  match (opField w).toNat with
  | 0x0 => withoutOperand w .idle
  | 0x1 => withoutOperand w .tick
  | 0x2 => .operation (.done (sampleOperand w))
  | 0x3 => withoutOperand w .svct
  | 0x4 => withoutOperand w .svca
  | 0x5 => withoutOperand w .svc
  | 0x6 => withoutOperand w .arm
  | 0x7 => withoutOperand w .pwmck
  | 0xF => withoutOperand w .reset
  | _ => .invalid .reservedOp

/-- The encoder: the `op` and `arg` columns of R45. -/
def encode : Instr → EventWord
  | .idle => packWord 0b0000 0
  | .tick => packWord 0b0001 0
  | .done v => packWord 0b0010 v
  | .svct => packWord 0b0011 0
  | .svca => packWord 0b0100 0
  | .svc => packWord 0b0101 0
  | .arm => packWord 0b0110 0
  | .pwmck => packWord 0b0111 0
  | .reset => packWord 0b1111 0

/-- One row of the opcode map: a word `w` encodes the operation when `w &&& mask = fixed` (R45). -/
structure OpRow where
  mnemonic : String
  fixed : EventWord
  mask : EventWord
deriving DecidableEq, Repr

/-- Does the word match the row? (R45) -/
def OpRow.hits (r : OpRow) (w : EventWord) : Bool := w &&& r.mask == r.fixed

/-- The row of the opcode map that an operation belongs to (R45), typed out from the spec's table and not from `encode`. -/
def Instr.row : Instr → OpRow
  | .idle => ⟨"IDLE", 0x000, 0xFFF⟩
  | .tick => ⟨"TICK", 0x100, 0xFFF⟩
  | .done _ => ⟨"DONE", 0x200, 0xF00⟩
  | .svct => ⟨"SVCT", 0x300, 0xFFF⟩
  | .svca => ⟨"SVCA", 0x400, 0xFFF⟩
  | .svc => ⟨"SVC", 0x500, 0xFFF⟩
  | .arm => ⟨"ARM", 0x600, 0xFFF⟩
  | .pwmck => ⟨"PWMCK", 0x700, 0xFFF⟩
  | .reset => ⟨"RESET", 0xF00, 0xFFF⟩

/-- The nine rows of the opcode map, in the table's order (R45). -/
def opcodeMap : List OpRow :=
  [Instr.row .idle, Instr.row .tick, Instr.row (.done 0), Instr.row .svct, Instr.row .svca, Instr.row .svc,
   Instr.row .arm, Instr.row .pwmck, Instr.row .reset]

/-- The event word that the low `nbits` bits of `w` stand for. A number with a bit above bit 11 is no event word, since a word
is exactly 12 bits (R44); the invalid word `0xFFF` stands for it (log 13). -/
def tableWord (nbits w : Nat) : EventWord :=
  if w % 2 ^ nbits < 4096 then BitVec.ofNat 12 (w % 2 ^ nbits) else 0xFFF

/-- The operation the decoder reads from a word numbered as spec/opcode_table.json numbers it, none where it is invalid. -/
def decodeTableWord (nbits w : Nat) : Option Instr :=
  match decode (tableWord nbits w) with
  | .operation i => some i
  | .invalid _ => none

end Sys2Proof
end

