-- ==== Sys2Proof/Machine/State.lean ====
section
/-! DEFINITION. The state of the block (spec/10_state.md R10 to R24): the ten registers, the event history, and three fields of the
model's own (log 3, log 4); why a step stops; the state right after reset. -/
namespace Sys2Proof.Machine

/-- The scheduler's state, which stands for a program counter (R14). -/
inductive Phase where
  /-- waiting for period -/
  | idle
  /-- waiting for conversion result -/
  | converting
deriving DecidableEq, Repr

/-- One outward-facing event of a run (R22). -/
inductive Event where
  /-- one start request issued to the converter -/
  | adcStart
  /-- one APPLY, with the pair written -/
  | apply (d : DirField) (m : Duty)
deriving DecidableEq, Repr

/-- The conjunct of a guard that is false: why an operation is not enabled (R51; log 10). -/
inductive FalseGuard where
  /-- DONE: no conversion is in flight, CONV_BUSY is 0 (R72). -/
  | convBusyClear
  /-- SVCT: TMR_IF is 0 (R73). -/
  | tmrIfClear
  /-- SVCT: TMR_IE is 0 (R73). -/
  | tmrIeClear
  /-- SVCT: the policy is Defer and PHASE is Converting (R74). -/
  | deferredWhileConverting
  /-- SVCT: ARB_ORDER is AdcFirst and the conversion-complete source is serviceable too (R105). -/
  | arbiterTakesAdcFirst
  /-- SVCA: ADC_IF is 0 (R75). -/
  | adcIfClear
  /-- SVCA: ADC_IE is 0 (R75). -/
  | adcIeClear
  /-- SVCA: ARB_ORDER is TimerFirst and the period-elapsed source is serviceable too (R105). -/
  | arbiterTakesTimerFirst
  /-- SVC: no source is serviceable (R105). -/
  | nothingServiceable
deriving DecidableEq, Repr

/-- Why the machine stops with a fault: never. No operation of the block can fail, there is no exception (R81, R100), so there
is no fault to name. Safe. -/
inductive Fault where
deriving DecidableEq, Repr

/-- Why a step is refused: verdicts of the model about a trace, not events in the hardware (R100). -/
inductive Refusal where
  /-- Raised by an arm of exec whose instruction has no meaning yet. Safe: the model stops. -/
  | notModelled (mnemonic : String)
  /-- Raised by DONE, SVCT, SVCA and SVC when their guard is false: the line of the trace (log 19) and the guard (R51). Safe: the
  relation has no such step. -/
  | notEnabled (line : Nat) (guard : FalseGuard)
  /-- Raised by step and runTrace on a word that encodes no operation (R47). Safe: the model gives it no meaning. -/
  | invalidWord (line : Nat) (word : EventWord) (why : InvalidWord)
  /-- Raised by APPLY on a pair outside the contract, which no rule generates (R92). Safe: never reached through SVCA. -/
  | applyArguments (d : DirField) (m : Duty)
  /-- Raised by step when the trace has no line left: the run has ended (R134; log 5). Safe: the model says nothing more. -/
  | traceEnded (line : Nat)
deriving DecidableEq, Repr

/-- The state of the block (R10) and, last, the model's own three fields. -/
structure State where
  /-- ADRES: RawSample, the converter's latest result (R11) -/
  adres : Sample
  /-- DIR_OUT: the direction output field (R12) -/
  dirOut : DirField
  /-- DUTY: the PWM duty (compare) value (R13) -/
  duty : Duty
  /-- PHASE: Idle or Converting (R14) -/
  phase : Phase
  /-- TMR_IF: period-elapsed pending flag (R15) -/
  tmrIf : Bool
  /-- ADC_IF: conversion-complete pending flag (R16) -/
  adcIf : Bool
  /-- TMR_IE: period-elapsed source enable (R17) -/
  tmrIe : Bool
  /-- ADC_IE: conversion-complete source enable (R18) -/
  adcIe : Bool
  /-- CONV_BUSY: a conversion is in flight; the Converter's, hidden (R19) -/
  convBusy : Bool
  /-- PWMCNT: PWM time-base count (R20) -/
  pwmcnt : Nat
  /-- the event history, oldest event first (R22) -/
  history : List Event
  /-- MODEL'S OWN: how many free values have been drawn (log 2, log 3) -/
  draws : Nat
  /-- MODEL'S OWN: the event words not yet taken, the next one first (log 4) -/
  trace : List EventWord
  /-- MODEL'S OWN: the number of the next line of the trace, one line for each event word (log 4, log 19) -/
  line : Nat
deriving DecidableEq, Repr

/-- The three outcomes of a step of this block. -/
abbrev Result := Host.Outcome State Fault Refusal

/-- The state right after reset: the values of R24, an empty history, no trace loaded. ADRES is "unspecified" there; 0 is the
model's choice (DESIGN CHOICE, log 1), and so are the values of the model's own fields (log 3, log 4). -/
def State.reset : State where
  adres := 0
  dirOut := 0b00
  duty := 0x00
  phase := .idle
  tmrIf := false
  adcIf := false
  tmrIe := false
  adcIe := false
  convBusy := false
  pwmcnt := 0
  history := []
  draws := 0
  trace := []
  line := 1

end Sys2Proof.Machine
end

