-- ==== Sys2Proof/Machine/Ops.lean ====
section
/-! DEFINITION. The register space (spec/20_memory.md R30, R34): every read and write of a register goes through a name of this file.
A write moves the whole register and has no other effect. -/
namespace Sys2Proof.Machine

/-- PHASE is one bit: Idle = 0, Converting = 1 (R43). -/
def Phase.bit : Phase → BitVec 1
  | .idle => 0
  | .converting => 1

/-- The phase that a bit encodes (R43). -/
def Phase.ofBit (b : BitVec 1) : Phase := if b = 0 then .idle else .converting

/-! ### Named writes -/

/-- ADRES <- v: "never mutated, only replaced" (R11). -/
def State.setAdres (v : Sample) (s : State) : State := { s with adres := v }

/-- DIR_OUT <- d ; DUTY <- m, both in one step (R34, R91). -/
def State.setOutputs (d : DirField) (m : Duty) (s : State) : State := { s with dirOut := d, duty := m }

/-- PHASE <- p (R14). -/
def State.setPhase (p : Phase) (s : State) : State := { s with phase := p }

/-- TMR_IF <- b (R15). -/
def State.setTmrIf (b : Bool) (s : State) : State := { s with tmrIf := b }

/-- ADC_IF <- b (R16). -/
def State.setAdcIf (b : Bool) (s : State) : State := { s with adcIf := b }

/-- TMR_IE <- b ; ADC_IE <- b: no operation writes one without the other (R17, R18, R122). -/
def State.setEnables (b : Bool) (s : State) : State := { s with tmrIe := b, adcIe := b }

/-- CONV_BUSY <- b (R19). -/
def State.setConvBusy (b : Bool) (s : State) : State := { s with convBusy := b }

/-- PWMCNT <- n (R20). -/
def State.setPwmcnt (n : Nat) (s : State) : State := { s with pwmcnt := n }

/-- Append one event to the history; it writes no register (R8 `emit`, R22). -/
def State.emit (e : Event) (s : State) : State := { s with history := s.history ++ [e] }

/-- One free value has been drawn (log 2, log 3). -/
def State.nextDraw (s : State) : State := { s with draws := s.draws + 1 }

/-- Go to the next line of the trace, `rest` being what is left of it (log 4). DESIGN CHOICE (log 19): a line is one event word, so a
blank line of the text counts for none and a pseudo-operation for as many as its expansion has words. -/
def State.advance (rest : List EventWord) (s : State) : State := { s with trace := rest, line := s.line + 1 }

/-- A start request to the converter: one `adc_start` event, and one conversion is in flight afterwards, whether the converter
was idle, restarts or ignores the request (R74, R78 (b)). -/
def State.requestConversion (s : State) : State := (s.emit .adcStart).setConvBusy true

/-! ### Outcomes -/

/-- Go on from a next state; a fault or a refusal stays what it is. -/
def onNext (o : Result) (f : State → Result) : Result :=
  match o with
  | .next s => f s
  | .fault r => .fault r
  | .refused r => .refused r

/-- Change the next state; a fault or a refusal stays what it is. -/
def mapNext (f : State → State) (o : Result) : Result := onNext o fun s => .next (f s)

/-- The next state, if there is one. -/
def nextOf (o : Result) : Option State :=
  match o with
  | .next s => some s
  | .fault _ => none
  | .refused _ => none

/-- The reason of a refusal, if it is one. -/
def refusalOf (o : Result) : Option Refusal :=
  match o with
  | .next _ => none
  | .fault _ => none
  | .refused r => some r

/-! ### The register space by name (R10, R30) -/

/-- The ten registers of R10. They have no addresses and no numbers (R30). -/
inductive Reg where
  | adres
  | dirOut
  | duty
  | phase
  | tmrIf
  | adcIf
  | tmrIe
  | adcIe
  | convBusy
  | pwmcnt
deriving DecidableEq, Repr

/-- The ten registers, in the order of R10. -/
def Reg.all : List Reg :=
  [.adres, .dirOut, .duty, .phase, .tmrIf, .adcIf, .tmrIe, .adcIe, .convBusy, .pwmcnt]

/-- How many values the register can hold: two to its width (R10), and PWM_PERIOD for PWMCNT (R20). -/
def Reg.size (P : Params) : Reg → Nat
  | .adres => 256
  | .dirOut => 4
  | .duty => 256
  | .phase => 2
  | .tmrIf => 2
  | .adcIf => 2
  | .tmrIe => 2
  | .adcIe => 2
  | .convBusy => 2
  | .pwmcnt => P.pwmPeriod

/-- Read a whole register, as an unsigned number; a read has no side effect (R8, R34). -/
def Reg.get (r : Reg) (s : State) : Nat :=
  match r with
  | .adres => s.adres.toNat
  | .dirOut => s.dirOut.toNat
  | .duty => s.duty.toNat
  | .phase => s.phase.bit.toNat
  | .tmrIf => s.tmrIf.toNat
  | .adcIf => s.adcIf.toNat
  | .tmrIe => s.tmrIe.toNat
  | .adcIe => s.adcIe.toNat
  | .convBusy => s.convBusy.toNat
  | .pwmcnt => s.pwmcnt

/-- Replace a whole register by a number, taken modulo the register's width; nothing else changes (R34). No operation does
this by name: it serves statements about what an operation reads. -/
def Reg.put (r : Reg) (n : Nat) (s : State) : State :=
  match r with
  | .adres => { s with adres := BitVec.ofNat 8 n }
  | .dirOut => { s with dirOut := BitVec.ofNat 2 n }
  | .duty => { s with duty := BitVec.ofNat 8 n }
  | .phase => { s with phase := Phase.ofBit (BitVec.ofNat 1 n) }
  | .tmrIf => { s with tmrIf := n % 2 == 1 }
  | .adcIf => { s with adcIf := n % 2 == 1 }
  | .tmrIe => { s with tmrIe := n % 2 == 1 }
  | .adcIe => { s with adcIe := n % 2 == 1 }
  | .convBusy => { s with convBusy := n % 2 == 1 }
  | .pwmcnt => { s with pwmcnt := n }

end Sys2Proof.Machine
end

