-- ==== Sys2Proof/Machine/Flags.lean ====
section
/-! DEFINITION. The two pending flags, their enables, and every guard that reads them (spec/60_exceptions.md R102 to R105,
spec/30_encoding.md R51). -/
namespace Sys2Proof.Machine

/-- `T`: the period-elapsed source is serviceable. Pending, enabled, and under Defer also PHASE == Idle (R104). -/
def timerServiceable (P : Params) (s : State) : Bool :=
  s.tmrIf && s.tmrIe && (P.policy != .defer || s.phase == .idle)

/-- `A`: the conversion-complete source is serviceable. Pending and enabled; PHASE plays no part (R76, R104). -/
def adcServiceable (s : State) : Bool := s.adcIf && s.adcIe

/-- The conjunct of DONE's guard that is false, if one is (R72). -/
def doneBlocked (s : State) : Option FalseGuard :=
  if s.convBusy then none else some .convBusyClear

/-- The first conjunct of SVCT's full guard that is false, if one is: `T` and not (AdcFirst and `A`) (R51, R105; log 10). -/
def svctBlocked (P : Params) (s : State) : Option FalseGuard :=
  if !s.tmrIf then some .tmrIfClear
  else if !s.tmrIe then some .tmrIeClear
  else if P.policy = .defer ∧ s.phase = .converting then some .deferredWhileConverting
  else if P.order = .adcFirst ∧ adcServiceable s then some .arbiterTakesAdcFirst
  else none

/-- The first conjunct of SVCA's full guard that is false, if one is: `A` and not (TimerFirst and `T`) (R51, R105; log 10). -/
def svcaBlocked (P : Params) (s : State) : Option FalseGuard :=
  if !s.adcIf then some .adcIfClear
  else if !s.adcIe then some .adcIeClear
  else if P.order = .timerFirst ∧ timerServiceable P s then some .arbiterTakesTimerFirst
  else none

/-- Take the operation's effect if no conjunct of its guard is false; else refuse, naming the line and the guard, with no
change of state (R51). -/
def guarded (blocked : Option FalseGuard) (s : State) (effect : Result) : Result :=
  match blocked with
  | none => effect
  | some g => .refused (.notEnabled s.line g)

end Sys2Proof.Machine
end

