-- ==== Sys2Proof/Machine/Mapper.lean ====
section
/-! DEFINITION. The command mapper: a pure, total, stateless function of one RawSample (spec/40_mapper.md R60 to R68). It reads and
writes no register, sets no flag and refuses no input. -/
namespace Sys2Proof.Machine

/-- "an enumerated value with exactly two variants" (R41). -/
inductive Direction where
  | forward
  | reverse
deriving DecidableEq, Repr

/-- The two-bit pattern: 01 for Forward, 10 for Reverse (R41). -/
def dirbits : Direction → DirField
  | .forward => 0b01
  | .reverse => 0b10

/-- `direction(v)`: Forward when v > 127, else Reverse (R61). -/
def direction (v : Sample) : Direction := if v.toNat > 127 then .forward else .reverse

/-- `magnitude(v)` on mathematical integers, before the narrowing to 8 bits (R62, R64). -/
def magnitudeExact (v : Sample) : Int :=
  if v.toNat < 127 then 254 - 2 * (v.toNat : Int)
  else if v.toNat > 128 then 2 * (v.toNat : Int) - 256
  else 0

/-- `magnitude(v)`: the exact result narrowed to 8 bits at the end (R62, R64). -/
def magnitude (v : Sample) : Duty := BitVec.ofInt 8 (magnitudeExact v)

/-- `map(v)`: the pair that SVCA hands to APPLY, both parts from the same v (R63). -/
def map (v : Sample) : DirField × Duty := (dirbits (direction v), magnitude v)

end Sys2Proof.Machine
end

