-- ==== Sys2Proof/Machine/Output.lean ====
section
/-! DEFINITION. The PWM output controller (spec/42_output.md): the micro-operation APPLY, the optional time base (PWMCK) and the
combinational output pwm_out. -/
namespace Sys2Proof.Machine

/-- A pair inside APPLY's contract: a Direction pattern, and a duty that is even and in 0 to 254 (R90, R92). -/
def applyLegal (d : DirField) (m : Duty) : Bool :=
  (d == 0b01 || d == 0b10) && m.toNat % 2 == 0 && decide (m.toNat ≤ 254)

/-- APPLY(d, m): both outputs in one step, and one event in the history (R91). Exposed on its own it refuses a pair outside
its contract (R92; log 11). -/
def applyPair (d : DirField) (m : Duty) (s : State) : Result :=
  if applyLegal d m then .next ((s.setOutputs d m).emit (.apply d m)) else .refused (.applyArguments d m)

/-- PWMCK for given parameters: PWMCNT <- (PWMCNT + 1) mod PWM_PERIOD, always enabled (R94). -/
def pwmckWith (P : Params) (s : State) : Result := .next (s.setPwmcnt ((s.pwmcnt + 1) % P.pwmPeriod))

/-- PWMCK (R94), PWM_PERIOD being an OPEN constant. -/
def execPwmck (s : State) : Result := pwmckWith Config.params s

/-- `pwm_out`: 1 if PWMCNT < DUTY, on the current values of both, unbuffered, active-high (R95). -/
def pwmOut (s : State) : Bool := decide (s.pwmcnt < s.duty.toNat)

end Sys2Proof.Machine
end

