-- ==== Sys2Proof/Machine/Scheduler.lean ====
section
/-! DEFINITION. The sampling scheduler (spec/41_scheduler.md R70 to R81): IDLE, TICK, DONE v, SVCT, SVCA. Taking a service is one
shared operation, `takeService`; it saves nothing and switches nothing, and there is no return (spec/60_exceptions.md R108,
R109). The `…With` forms take the parameters of R7, so that every RETRIGGER_POLICY and ARB_ORDER has its meaning (log 8). -/
namespace Sys2Proof.Machine

/-- IDLE: always enabled, changes nothing (R79). -/
def execIdle (s : State) : Result := .next s

/-- TICK: TMR_IF <- 1, not gated by TMR_IE; a second period is merged with a waiting one (R71, R103, R126). -/
def execTick (s : State) : Result := .next (s.setTmrIf true)

/-- DONE v: only while a conversion is in flight; ADRES <- v, ADC_IF <- 1, CONV_BUSY <- 0 (R72). Not gated by ADC_IE. -/
def execDone (v : Sample) (s : State) : Result :=
  guarded (doneBlocked s) s (.next (((s.setAdres v).setAdcIf true).setConvBusy false))

/-- The effect of the period-elapsed service (R73, R74). Under Defer the service does not exist while Converting: its guard is
false there, and this arm, which no operation reaches, changes nothing. -/
def serviceTimer (P : Params) (s : State) : State :=
  match s.phase with
  | .idle => (s.setTmrIf false).requestConversion.setPhase .converting
  | .converting =>
    match P.policy with
    | .drop => s.setTmrIf false
    | .defer => s
    | .restart => (s.setTmrIf false).requestConversion

/-- The effect of the conversion-complete service: clear the flag, read ADRES once, map, APPLY, back to Idle (R75, R76). -/
def serviceAdc (s : State) : Result :=
  mapNext (State.setPhase .idle) (applyPair (map s.adres).1 (map s.adres).2 (s.setAdcIf false))

/-- The handler context takes one service: entry saves nothing, and the service ends when its step ends (R108, R109). -/
def takeService (P : Params) (k : Service) (s : State) : Result :=
  match k with
  | .timer => .next (serviceTimer P s)
  | .adc => serviceAdc s

/-- SVCT for given parameters (R51, R73, R74, R105). -/
def svctWith (P : Params) (s : State) : Result := guarded (svctBlocked P s) s (takeService P .timer s)

/-- SVCA for given parameters (R51, R75, R105). -/
def svcaWith (P : Params) (s : State) : Result := guarded (svcaBlocked P s) s (takeService P .adc s)

/-- SVCT with the decided parameters (R73, R74). -/
def execSvct (s : State) : Result := svctWith Config.params s

/-- SVCA with the decided parameters (R75). -/
def execSvca (s : State) : Result := svcaWith Config.params s

end Sys2Proof.Machine
end

