-- ==== Sys2Proof/Machine/Arbiter.lean ====
section
/-! DEFINITION. The interrupt arbiter (spec/60_exceptions.md R105 to R107): SVC takes exactly one service per step. -/
namespace Sys2Proof.Machine

/-- Both sources wait and ARB_ORDER fixes no order: the one place where the relation has two steps (R105). -/
def choiceIsOpen (P : Params) (s : State) : Bool :=
  timerServiceable P s && adcServiceable s && P.order == .either

/-- The service the arbiter takes, `pick` being its choice where the choice is open; none when no source is serviceable
(R105). -/
def chosen (P : Params) (pick : Service) (s : State) : Option Service :=
  match timerServiceable P s, adcServiceable s with
  | false, false => none
  | true, false => some .timer
  | false, true => some .adc
  | true, true =>
    match P.order with
    | .timerFirst => some .timer
    | .adcFirst => some .adc
    | .either => some pick

/-- Count the draw of a free value if the choice was open (log 3). -/
def countDraw (isOpen : Bool) (s : State) : State := if isOpen then s.nextDraw else s

/-- SVC for given parameters and a given choice: not enabled when nothing is serviceable, else one service (R105). -/
def svcWith (P : Params) (pick : Service) (s : State) : Result :=
  match chosen P pick s with
  | none => .refused (.notEnabled s.line .nothingServiceable)
  | some k => mapNext (countDraw (choiceIsOpen P s)) (takeService P k s)

/-- SVC with the decided parameters; under Either the choice is a free value, drawn once for each open choice (R105, R107). -/
def execSvc (s : State) : Result := svcWith Config.params (Config.arbiterPicks s.draws) s

end Sys2Proof.Machine
end

