-- ==== Sys2Proof/Machine/Boot.lean ====
section
/-! DEFINITION. RESET and ARM (spec/70_reset_and_hazards.md R120 to R124). -/
namespace Sys2Proof.Machine

/-- RESET: every register at its reset value, ADRES unspecified (a free value, log 2), the history kept (R24, R120). The model's
own trace and line go on, since RESET is an operation of the trace. -/
def execReset (s : State) : Result :=
  .next ((((((((s.setAdres (Config.unspecifiedAdres s.draws)).setOutputs 0b00 0x00).setPhase .idle).setTmrIf false).setAdcIf
    false).setEnables false).setConvBusy false).setPwmcnt 0).nextDraw

/-- ARM: both enables are set, in the same step; nothing else changes (R122). -/
def execArm (s : State) : Result := .next (s.setEnables true)

end Sys2Proof.Machine
end

