-- ==== Sys2Proof/Machine/Dispatch.lean ====
section
/-! DEFINITION. One arm per operation of spec/opcode_table.json. -/
namespace Sys2Proof.Machine

def exec (i : Instr) (s : State) : Host.Outcome State Fault Refusal :=
  match i with
  | .idle => Sys2Proof.Machine.execIdle s
  | .tick => Sys2Proof.Machine.execTick s
  | .done v => Sys2Proof.Machine.execDone v s
  | .svct => Sys2Proof.Machine.execSvct s
  | .svca => Sys2Proof.Machine.execSvca s
  | .svc => Sys2Proof.Machine.execSvc s
  | .arm => Sys2Proof.Machine.execArm s
  | .pwmck => Sys2Proof.Machine.execPwmck s
  | .reset => Sys2Proof.Machine.execReset s

end Sys2Proof.Machine
end

