-- ==== Sys2Proof/Machine/Step.lean ====
section
/-! DEFINITION. One step: take the next event word of the trace, decode it, run the operation, go to the next line
(spec/00_scope.md R5; spec/30_encoding.md R47, R49, R51; log 4). -/
namespace Sys2Proof.Machine

/-- One step of the machine. The trace stands where a program would: its first word is the next operation. An invalid word is
refused by name, and the end of the trace is the end of the run (R47, R134). -/
def step (s : State) : Host.Outcome State Fault Refusal :=
  match s.trace with
  | [] => .refused (.traceEnded s.line)
  | w :: rest =>
    match decode w with
    | .invalid why => .refused (.invalidWord s.line w why)
    | .operation i => mapNext (State.advance rest) (exec i s)

/-- `s` with the word `w` (numbered as the opcode table numbers it) as the trace's next line; the lines after it stay (log 4). -/
def State.withFetchWord (s : State) (nbits w : Nat) : State :=
  { s with trace := tableWord nbits w :: s.trace.tail }

end Sys2Proof.Machine
end

