-- ==== Sys2Proof/WellFormed.lean ====
section
/-! DEFINITION. The checks that make a piece of syntax or a set of parameters meaningful. An operand inside `Instr` is 8 bits by its
type, so `Instr.wf` holds of every term; the same check does refuse operands of trace TEXT, which are numbers (R49). -/
namespace Sys2Proof

/-- An operand of DONE or SAMPLE "must lie in 0 to 255" (R49). -/
def operandInRange (n : Nat) : Bool := decide (n ≤ 255)

/-- A well-formed operation: its operand, if it has one, lies in 0 to 255 (R46). -/
def Instr.wf : Instr → Bool
  | .idle => true
  | .tick => true
  | .done v => operandInRange v.toNat
  | .svct => true
  | .svca => true
  | .svc => true
  | .arm => true
  | .pwmck => true
  | .reset => true

/-- Well-formed parameters: both periods are positive counts (R7, R93). -/
def Params.wf (P : Params) : Bool := decide (1 ≤ P.pwmPeriod) && decide (1 ≤ P.samplingPeriod)

end Sys2Proof
end

