-- ==== Sys2Proof/Machine/TraceText.lean ====
section
/-! DEFINITION. The textual trace syntax and the pseudo-operations (spec/30_encoding.md R49, R50; log 14). -/
namespace Sys2Proof.Machine

/-- One line of a trace as written: an operation, or a pseudo-operation of R50. An operand is a number, not yet checked. -/
inductive TraceLine where
  | idle
  | tick
  | done (v : Nat)
  | svct
  | svca
  | svc
  | arm
  | pwmck
  | reset
  | boot
  | sample (v : Nat)
  | pwmrun (n : Nat)
deriving DecidableEq, Repr

/-- The operand of DONE and of SAMPLE lies in 0 to 255 (R49); PWMRUN takes any count (R50). -/
def TraceLine.wf : TraceLine → Bool
  | .idle => true
  | .tick => true
  | .done v => operandInRange v
  | .svct => true
  | .svca => true
  | .svc => true
  | .arm => true
  | .pwmck => true
  | .reset => true
  | .boot => true
  | .sample v => operandInRange v
  | .pwmrun _ => true

/-- The operations a line stands for: itself, or its expansion (R50). -/
def TraceLine.expand : TraceLine → List Instr
  | .idle => [.idle]
  | .tick => [.tick]
  | .done v => [.done (BitVec.ofNat 8 v)]
  | .svct => [.svct]
  | .svca => [.svca]
  | .svc => [.svc]
  | .arm => [.arm]
  | .pwmck => [.pwmck]
  | .reset => [.reset]
  | .boot => [.reset, .arm]
  | .sample v => [.tick, .svct, .done (BitVec.ofNat 8 v), .svca]
  | .pwmrun n => List.replicate n .pwmck

/-- Cut a text at every `sep`. -/
def cutAt (sep : Char) : List Char → List (List Char)
  | [] => [[]]
  | c :: cs =>
    match cutAt sep cs with
    | [] => [[c]]
    | l :: ls => if c = sep then [] :: l :: ls else (c :: l) :: ls

/-- A decimal digit's value. -/
def decDigit (c : Char) : Option Nat :=
  if 48 ≤ c.toNat ∧ c.toNat ≤ 57 then some (c.toNat - 48) else none

/-- A hexadecimal digit's value; letters in either case (log 14). -/
def hexDigit (c : Char) : Option Nat :=
  if 65 ≤ c.toNat ∧ c.toNat ≤ 70 then some (c.toNat - 55)
  else if 97 ≤ c.toNat ∧ c.toNat ≤ 102 then some (c.toNat - 87)
  else decDigit c

/-- A numeral in a base, most significant digit first; `acc` is what the digits before it give. -/
def numeral (digit : Char → Option Nat) (base : Nat) : Nat → List Char → Option Nat
  | acc, [] => some acc
  | acc, c :: cs =>
    match digit c with
    | none => none
    | some d => numeral digit base (acc * base + d) cs

/-- An operand: "a decimal number (`127`) or a hexadecimal number with `0x` prefix (`0x7F`)" (R49). -/
def operand : List Char → Option Nat
  | [] => none
  | '0' :: 'x' :: c :: cs => numeral hexDigit 16 0 (c :: cs)
  | c :: cs => numeral decDigit 10 0 (c :: cs)

/-- The operations and pseudo-operations without operand, by name (R45, R50). -/
def plainLine (name : List Char) : Option TraceLine :=
  if name = "IDLE".toList then some .idle
  else if name = "TICK".toList then some .tick
  else if name = "SVCT".toList then some .svct
  else if name = "SVCA".toList then some .svca
  else if name = "SVC".toList then some .svc
  else if name = "ARM".toList then some .arm
  else if name = "PWMCK".toList then some .pwmck
  else if name = "RESET".toList then some .reset
  else if name = "BOOT".toList then some .boot
  else none

/-- The ones that take a single operand, by name (R49, R50). -/
def operandLine (name : List Char) (n : Nat) : Option TraceLine :=
  if name = "DONE".toList then some (.done n)
  else if name = "SAMPLE".toList then some (.sample n)
  else if name = "PWMRUN".toList then some (.pwmrun n)
  else none

/-- One line of text: a comment runs from `;` to the end of the line, a blank line gives nothing, one or more spaces stand
between a mnemonic and its operand (R49). None where the line is not of the syntax or its operand is out of range. -/
def parseLine (text : List Char) : Option (List TraceLine) :=
  match (cutAt ' ' (text.takeWhile (· ≠ ';'))).filter (· ≠ []) with
  | [] => some []
  | [name] => (plainLine name).map fun l => [l]
  | [name, arg] =>
    match operand arg with
    | none => none
    | some n =>
      match operandLine name n with
      | none => none
      | some l => if l.wf then some [l] else none
  | _ => none

/-- All the lines, in order; none if one of them is refused. -/
def parseLines : List (List Char) → Option (List TraceLine)
  | [] => some []
  | t :: ts =>
    match parseLine t, parseLines ts with
    | some l, some ls => some (l ++ ls)
    | some _, none => none
    | none, _ => none

/-- A trace's text to its lines: "A trace is text, one operation per line" (R49). -/
def parseTrace (text : String) : Option (List TraceLine) := parseLines (cutAt '\n' text.toList)

/-- The event words of lines: a pseudo-operation is encoded as the words of its expansion (R50). -/
def wordsOf (ls : List TraceLine) : List EventWord := (ls.flatMap TraceLine.expand).map encode

/-- A trace's text to its event words. -/
def assemble (text : String) : Option (List EventWord) := (parseTrace text).map wordsOf

end Sys2Proof.Machine
end

