-- ==== Sys2Proof/Machine/Parametric.lean ====
section
/-! DEFINITION. The operations for EVERY value of the parameters (spec/00_scope.md R7: "the model may still take it as an argument so
that the other values can be studied"). `exec` is the case of `Config.params` (log 8). -/
namespace Sys2Proof.Machine

/-- One operation under the parameters `P` (R7, R45). -/
def execWith (P : Params) (i : Instr) (s : State) : Result :=
  match i with
  | .idle => execIdle s
  | .tick => execTick s
  | .done v => execDone v s
  | .svct => svctWith P s
  | .svca => svcaWith P s
  | .svc => svcWith P (Config.arbiterPicks s.draws) s
  | .arm => execArm s
  | .pwmck => pwmckWith P s
  | .reset => execReset s

/-- A run of operations under `P`, each on a line of its own (log 19): the end state is the state after the last one, and a run with a
refused line has none (R134). -/
def runOps (P : Params) : List Instr → State → Result
  | [], s => .next s
  | i :: is, s => onNext (execWith P i s) fun t => runOps P is { t with line := t.line + 1 }

/-- The service the operation takes when it is enabled: SVCT and SVCA are the Handler's steps with the arbiter's choice
written out (R105). -/
def serviceOf (P : Params) (i : Instr) (s : State) : Option Service :=
  match i with
  | .svct => some .timer
  | .svca => some .adc
  | .svc => chosen P (Config.arbiterPicks s.draws) s
  | .idle => none
  | .tick => none
  | .done _ => none
  | .arm => none
  | .pwmck => none
  | .reset => none

end Sys2Proof.Machine
end

