-- ==== Sys2Proof/Machine/Interface.lean ====
section
/-! DEFINITION. Agents, contexts and interface signals (spec/00_scope.md R6; spec/10_state.md R21; spec/60_exceptions.md R111). -/
namespace Sys2Proof.Machine

/-- The agents of R6. -/
inductive Agent where
  | handler
  | background
  | timer
  | converter
  | configurator
  | pwmTimebase
  | resetSource
deriving DecidableEq, Repr

/-- The agent that takes the operation (R6, R45). -/
def agentOf : Instr → Agent
  | .idle => .background
  | .tick => .timer
  | .done _ => .converter
  | .svct => .handler
  | .svca => .handler
  | .svc => .handler
  | .arm => .configurator
  | .pwmck => .pwmTimebase
  | .reset => .resetSource

/-- The two contexts of the block; an environment agent's operation belongs to neither (R111). -/
inductive Context where
  | background
  | handler
deriving DecidableEq, Repr

/-- The context an operation runs in: Background takes IDLE, Handler takes SVCT, SVCA and SVC (R111). -/
def contextOf (i : Instr) : Option Context :=
  match agentOf i with
  | .handler => some .handler
  | .background => some .background
  | .timer => none
  | .converter => none
  | .configurator => none
  | .pwmTimebase => none
  | .resetSource => none

/-- One occurrence of an input event; `adc_data` is valid with `adc_done` (R21). -/
inductive InputEvent where
  | rst
  | cfgDone
  | tmrEvt
  | adcDone (adcData : Sample)
  | pwmClk
deriving DecidableEq, Repr

/-- "One occurrence of an input event is one operation of the model" (R21). -/
def InputEvent.operation : InputEvent → Instr
  | .rst => .reset
  | .cfgDone => .arm
  | .tmrEvt => .tick
  | .adcDone v => .done v
  | .pwmClk => .pwmck

/-- The output signals that have a level (R21, R95). -/
structure Outputs where
  dirOut : DirField
  duty : Duty
  pwmOut : Bool
deriving DecidableEq, Repr

/-- What the output signals show in a state: `dir_out` and `duty` equal their registers at all times (R21). -/
def outputs (s : State) : Outputs := ⟨s.dirOut, s.duty, pwmOut s⟩

/-- The `adc_start` pulse (R21): did the step from `s` to `t` issue a start request? -/
def adcStartPulse (s t : State) : Bool := (t.history.drop s.history.length).contains .adcStart

end Sys2Proof.Machine
end

