-- ==== Sys2Proof/Machine/Trace.lean ====
section
/-! DEFINITION. Whole traces (spec/30_encoding.md R47, R51; spec/70_reset_and_hazards.md R134): a program of this block is a trace. -/
namespace Sys2Proof.Machine

/-- The first invalid word of a trace, as the refusal that names its line, counting event words (R47; log 19). -/
def firstInvalid : Nat → List EventWord → Option Refusal
  | _, [] => none
  | n, w :: ws =>
    match decode w with
    | .invalid why => some (.invalidWord n w why)
    | .operation _ => firstInvalid (n + 1) ws

/-- Load a trace from outside: a trace that holds an invalid word "is refused as a whole" and no step is taken for it (R47). -/
def loadTrace (ws : List EventWord) (s : State) : Result :=
  match firstInvalid 1 ws with
  | some r => .refused r
  | none => .next { s with trace := ws, line := 1 }

/-- `n` steps, stopping at the first refusal. -/
def steps : Nat → State → Result
  | 0, s => .next s
  | n + 1, s => onNext (step s) (steps n)

/-- Load a trace and run it to its end: "a trace is executed from its first line to its last, each line once" (R49). The
outcome is the end state, or the refusal of the line that has no step (R134). -/
def runTrace (ws : List EventWord) (s : State) : Result := onNext (loadTrace ws s) (steps ws.length)

end Sys2Proof.Machine
end

