-- ==== Sys2Proof/Safety.lean ====
section
/-! DEFINITION. The terms claims are stated in: what a step leaves unchanged, which register an operation reaches, the invariants,
what a run records, quiescence, and the fairness assumptions of liveness. -/
namespace Sys2Proof.Machine

/-! ### Effects and frames -/

/-- Every register that is not listed reads as before. -/
def Untouched (written : List Reg) (s t : State) : Prop := ∀ r : Reg, r ∉ written → r.get t = r.get s

/-- The whole frame of an operation: only the listed registers may differ, exactly the listed events are appended to the
history, `draws` free values are drawn, and the trace and its line number stay. -/
structure Effect (written : List Reg) (events : List Event) (draws : Nat) (s t : State) : Prop where
  registers : Untouched written s t
  history : t.history = s.history ++ events
  draws : t.draws = s.draws + draws
  trace : t.trace = s.trace
  line : t.line = s.line

/-- The registers an operation may write: the `w` entries of R31; SVC writes what either service writes. -/
def mayWrite : Instr → List Reg
  | .idle => []
  | .tick => [.tmrIf]
  | .done _ => [.adres, .adcIf, .convBusy]
  | .svct => [.phase, .tmrIf, .convBusy]
  | .svca => [.dirOut, .duty, .phase, .adcIf]
  | .svc => [.phase, .tmrIf, .convBusy, .dirOut, .duty, .adcIf]
  | .arm => [.tmrIe, .adcIe]
  | .pwmck => [.pwmcnt]
  | .reset => Reg.all

/-- The registers an operation may read, in its guard or its effect, with the decided ARB_ORDER: the `r` and `g` entries of R31;
SVC reads what either service reads and the four bits of its guard. -/
def mayRead : Instr → List Reg
  | .idle => []
  | .tick => []
  | .done _ => [.convBusy]
  | .svct => [.phase, .tmrIf, .tmrIe]
  | .svca => [.adres, .adcIf, .adcIe]
  | .svc => [.phase, .tmrIf, .tmrIe, .adres, .adcIf, .adcIe]
  | .arm => []
  | .pwmck => [.pwmcnt]
  | .reset => []

/-! ### Guards, as R51 writes them -/

/-- The full guard of an operation (R51). -/
def Enabled (P : Params) (i : Instr) (s : State) : Prop :=
  match i with
  | .idle => True
  | .tick => True
  | .done _ => s.convBusy = true
  | .svct => timerServiceable P s = true ∧ ¬ (P.order = .adcFirst ∧ adcServiceable s = true)
  | .svca => adcServiceable s = true ∧ ¬ (P.order = .timerFirst ∧ timerServiceable P s = true)
  | .svc => timerServiceable P s = true ∨ adcServiceable s = true
  | .arm => True
  | .pwmck => True
  | .reset => True

/-- The conjunct that a refusal names is false in the state (R51, R72 to R75, R105). -/
def FalseGuard.Fails (P : Params) (g : FalseGuard) (s : State) : Prop :=
  match g with
  | .convBusyClear => s.convBusy = false
  | .tmrIfClear => s.tmrIf = false
  | .tmrIeClear => s.tmrIe = false
  | .deferredWhileConverting => P.policy = .defer ∧ s.phase = .converting
  | .arbiterTakesAdcFirst => P.order = .adcFirst ∧ adcServiceable s = true
  | .adcIfClear => s.adcIf = false
  | .adcIeClear => s.adcIe = false
  | .arbiterTakesTimerFirst => P.order = .timerFirst ∧ timerServiceable P s = true
  | .nothingServiceable => timerServiceable P s = false ∧ adcServiceable s = false

/-- The conjuncts of the guard of an operation, by name, one for each part of its row in the table of R51 and of the `T` and `A`
that the row stands on; SVC has the one disjunction. -/
def guardConjuncts : Instr → List FalseGuard
  | .idle => []
  | .tick => []
  | .done _ => [.convBusyClear]
  | .svct => [.tmrIfClear, .tmrIeClear, .deferredWhileConverting, .arbiterTakesAdcFirst]
  | .svca => [.adcIfClear, .adcIeClear, .arbiterTakesTimerFirst]
  | .svc => [.nothingServiceable]
  | .arm => []
  | .pwmck => []
  | .reset => []

/-! ### Invariants -/

/-- R25 (a), (b), (c): either no sample has been applied since reset and both outputs are at their reset values, or the outputs
are the pair of some sample. -/
def OutputsLegal (s : State) : Prop :=
  (s.dirOut = 0b00 ∧ s.duty = 0x00) ∨ ∃ v : Sample, (s.dirOut, s.duty) = map v

/-- R26 (a) and (b): at most one of "in flight" and "completed, unserviced", and PHASE is Converting exactly when one holds. -/
def SchedulerCoupled (s : State) : Prop :=
  ¬ (s.convBusy = true ∧ s.adcIf = true) ∧
  (s.phase = .converting ↔ s.convBusy = true ∨ s.adcIf = true)

/-- "there is no state in which one source is enabled and the other is not" (R122). -/
def EnabledTogether (s : State) : Prop := s.tmrIe = s.adcIe

/-- PWMCNT has range 0 to PWM_PERIOD - 1 (R20, R93). -/
def PwmInRange (P : Params) (s : State) : Prop := s.pwmcnt < P.pwmPeriod

/-- The invariant of the block under the decided parameters. -/
structure Inv (P : Params) (s : State) : Prop where
  outputs : OutputsLegal s
  coupled : SchedulerCoupled s
  together : EnabledTogether s
  pwm : PwmInRange P s

/-- The state a run may begin in besides BOOT: "armed, PHASE == Idle, TMR_IF == ADC_IF == CONV_BUSY == 0" (R124). -/
def BootState (s : State) : Prop :=
  s.tmrIe = true ∧ s.adcIe = true ∧ s.phase = .idle ∧ s.tmrIf = false ∧ s.adcIf = false ∧ s.convBusy = false

/-- No service is serviceable and no conversion is in flight (R134). -/
def Quiescent (P : Params) (s : State) : Prop :=
  timerServiceable P s = false ∧ adcServiceable s = false ∧ s.convBusy = false

/-- Equal but for the value ADRES holds. -/
def SameButAdres (s t : State) : Prop := t = { s with adres := t.adres }

/-- Nothing tells the two states apart as long as an unspecified ADRES is not read: they are equal, or they differ in ADRES
only and no completed conversion waits in either (R27). -/
def AdresUnobserved (s t : State) : Prop := s = t ∨ (SameButAdres s t ∧ s.adcIf = false)

/-! ### What a run records -/

/-- The pairs forwarded to the output stage, in order (R22). -/
def applied : List Event → List (DirField × Duty)
  | [] => []
  | .adcStart :: es => applied es
  | .apply d m :: es => (d, m) :: applied es

/-- `es` is an alternation of `adc_start` and `apply` that begins with `adc_start` if `startNext`, else with `apply` (R26 (d)). -/
def Alternates : Bool → List Event → Prop
  | _, [] => True
  | true, .adcStart :: es => Alternates false es
  | false, .apply _ _ :: es => Alternates true es
  | true, .apply _ _ :: _ => False
  | false, .adcStart :: _ => False

/-- The samples of the DONE operations of a run, in order (R80). -/
def doneSamples : List Instr → List Sample
  | [] => []
  | .done v :: is => v :: doneSamples is
  | .idle :: is => doneSamples is
  | .tick :: is => doneSamples is
  | .svct :: is => doneSamples is
  | .svca :: is => doneSamples is
  | .svc :: is => doneSamples is
  | .arm :: is => doneSamples is
  | .pwmck :: is => doneSamples is
  | .reset :: is => doneSamples is

/-- The values ADRES held at the conversion-complete services that a run takes, in order (R25 (d)). -/
def servedSamples (P : Params) : List Instr → State → List Sample
  | [], _ => []
  | i :: is, s =>
    match execWith P i s with
    | .next t =>
      (if serviceOf P i s = some .adc then [s.adres] else [])
        ++ servedSamples P is { t with line := t.line + 1 }
    | .fault _ => []
    | .refused _ => []

/-- No RESET of the run discards a completed sample that waits for its service: with `ADC_IF == 0` at the end too, every DONE
of the run has been followed by its SVCA (R80). -/
def NoneDiscarded (P : Params) : List Instr → State → Prop
  | [], _ => True
  | i :: is, s =>
    (i = .reset → s.adcIf = false) ∧
    ∀ t, execWith P i s = .next t → NoneDiscarded P is { t with line := t.line + 1 }

/-- No operation of the run takes the service `k` (R105, R126): an SVC that takes the other one is allowed. -/
def TakesNone (P : Params) (k : Service) : List Instr → State → Prop
  | [], _ => True
  | i :: is, s =>
    serviceOf P i s ≠ some k ∧
    ∀ t, execWith P i s = .next t → TakesNone P k is { t with line := t.line + 1 }

/-- `pwm_out` sampled before each of `n` PWMCK steps (R96; spec/95_test_vectors.md section 6). -/
def pwmWave (P : Params) : Nat → State → List Bool
  | 0, _ => []
  | n + 1, s =>
    match pwmckWith P s with
    | .next t => pwmOut s :: pwmWave P n t
    | .fault _ => []
    | .refused _ => []

/-! ### Infinite executions and fairness (R113) -/

/-- An infinite execution under `P`: in each state the operation taken is enabled and gives the next state. -/
structure Execution (P : Params) where
  st : Nat → State
  op : Nat → Instr
  follows : ∀ n, execWith P (op n) (st n) = .next (st (n + 1))

namespace Execution
variable {P : Params} (e : Execution P)

/-- At step `n` the service `k` is taken. -/
def Takes (k : Service) (n : Nat) : Prop := serviceOf P (e.op n) (e.st n) = some k

/-- R113 (a): "a service that stays serviceable is eventually taken". -/
def HandlerFair : Prop :=
  (∀ n, (∀ m, n ≤ m → timerServiceable P (e.st m) = true) → ∃ m, n ≤ m ∧ e.Takes .timer m) ∧
  (∀ n, (∀ m, n ≤ m → adcServiceable (e.st m) = true) → ∃ m, n ≤ m ∧ e.Takes .adc m)

/-- A start request is issued, or a RESET abandons the conversion, at step `n`. -/
def Abandons (n : Nat) : Prop := adcStartPulse (e.st n) (e.st (n + 1)) = true ∨ e.op n = .reset

/-- R113 (b): "a conversion in flight that is not restarted eventually ends in a DONE". -/
def ConverterProgress : Prop :=
  ∀ n, (e.st n).convBusy = true → ∃ m, n ≤ m ∧ ((∃ v, e.op m = .done v) ∨ e.Abandons m)

/-- R113 (c): "TICK happens again and again without end". -/
def TimerProgress : Prop := ∀ n, ∃ m, n ≤ m ∧ e.op m = .tick

/-- No RESET from step `n` on. -/
def NoResetFrom (n : Nat) : Prop := ∀ m, n ≤ m → e.op m ≠ .reset

end Execution
end Sys2Proof.Machine
end

