-- ==== Sys2Proof/Certificates/Slice0/Obligations.lean ====
section
/-! DEFINITION. The statements for the provers, one `def Obligations.<Name> : Prop` each; OBLIGATIONS.json lists them with the rules of
spec/ they rest on. Each statement about `execWith` holds for every parameter set P of spec/00_scope.md R7; each about `exec` or
`step` is about the block with the decided parameters. Where an operation draws a free value (the unspecified ADRES of RESET,
log 2; the open choice of SVC, log 3) the statement holds whatever that value is. -/
open Sys2Proof Sys2Proof.Machine

/-! ### Encoding -/

/-- R45's words, from spec/95_test_vectors.md section 4, written out bit by bit: `op` then `arg`. -/
def Obligations.SpecWordsDecodeAsTabled : Prop :=
  decode 0b0000_00000000 = .operation .idle ∧ decode 0b0001_00000000 = .operation .tick ∧
  decode 0b0010_00000000 = .operation (.done 0) ∧ decode 0b0010_01111111 = .operation (.done 127) ∧
  decode 0b0010_10000000 = .operation (.done 128) ∧ decode 0b0010_11111111 = .operation (.done 255) ∧
  decode 0b0011_00000000 = .operation .svct ∧ decode 0b0100_00000000 = .operation .svca ∧
  decode 0b0101_00000000 = .operation .svc ∧ decode 0b0110_00000000 = .operation .arm ∧
  decode 0b0111_00000000 = .operation .pwmck ∧ decode 0b1111_00000000 = .operation .reset ∧
  decode 0x001 = .invalid .nonZeroArg ∧ decode 0x480 = .invalid .nonZeroArg ∧ decode 0xF01 = .invalid .nonZeroArg ∧
  decode 0x800 = .invalid .reservedOp ∧ decode 0xEFF = .invalid .reservedOp

/-- R52: decoding an encoded operation gives it back, encoding a decoded word gives the word back, the decoder is total, and the
nine match/mask pairs are pairwise disjoint. -/
def Obligations.DecodeEncodeAgree : Prop :=
  (∀ i : Instr, decode (encode i) = .operation i) ∧
  (∀ (w : EventWord) (i : Instr), decode w = .operation i → encode i = w) ∧
  (∀ w : EventWord, (∃ i, decode w = .operation i) ∨ ∃ why, decode w = .invalid why) ∧
  opcodeMap.Pairwise fun a b => ∀ w : EventWord, ¬ (a.hits w = true ∧ b.hits w = true)

/-- R45, R46: a word decodes to an operation exactly when it matches that operation's row of the opcode map, and the operand of
DONE, the only operand there is, is `word[7:0]` as it stands. -/
def Obligations.DecodeFollowsOpcodeMap : Prop :=
  ∀ (w : EventWord) (i : Instr),
    decode w = .operation i ↔ (i.row.hits w = true ∧ ∀ v, i = .done v → v.toNat = w.toNat % 256)

/-- R47: which words are invalid, how many are valid, that a step on one is refused, and that a trace that contains one anywhere is
refused as a whole. -/
def Obligations.InvalidWordsAreRefused : Prop :=
  (∀ w : EventWord, (∃ why, decode w = .invalid why) ↔
    ((8 ≤ w.toNat / 256 ∧ w.toNat / 256 ≤ 14) ∨
      (w.toNat / 256 ∈ [0, 1, 3, 4, 5, 6, 7, 15] ∧ w.toNat % 256 ≠ 0))) ∧
  ((List.range 4096).filter fun n => (decodeTableWord 12 n).isSome).length = 264 ∧
  (∀ s w rest why, s.trace = w :: rest → decode w = .invalid why → step s = .refused (.invalidWord s.line w why)) ∧
  (∀ ws w why s, w ∈ ws → decode w = .invalid why →
    ∃ n w' why', w' ∈ ws ∧ decode w' = .invalid why' ∧ runTrace ws s = .refused (.invalidWord n w' why'))

/-! ### Steps -/

/-- R5, R49: when the next word of the trace decodes to an operation, a step is that operation, and the trace then stands at its
next line; a refused operation refuses the step. -/
def Obligations.StepRunsDecodedOperation : Prop :=
  ∀ (s : State) (w : EventWord) (rest : List EventWord) (i : Instr), s.trace = w :: rest → decode w = .operation i →
    (∀ t, exec i s = .next t → step s = .next { t with trace := rest, line := s.line + 1 }) ∧
    (∀ r, exec i s = .refused r → step s = .refused r)

/-- Log 4, log 13: a word placed by `withFetchWord` is the next operation that a step runs, for every operation. -/
def Obligations.FetchedWordIsRun : Prop :=
  ∀ (i : Instr) (s : State),
    decodeTableWord 16 (encode i).toNat = some i ∧
    ∀ t, exec i (s.withFetchWord 16 (encode i).toNat) = .next t →
      step (s.withFetchWord 16 (encode i).toNat) = .next { t with trace := s.trace.tail, line := s.line + 1 }

/-- R47, R49, R134: running a trace of valid words is running its operations in order, one line each, under the decided parameters;
the outcome is the end state, or the refusal of the first line that has no step. That the trace stands in the state, that its lines
are numbered from 1 and that each event word is one line are the model's choices (log 4, log 19). -/
def Obligations.TraceRunsItsOperations : Prop :=
  ∀ (is : List Instr) (s : State),
    runTrace (is.map encode) s =
      mapNext (fun t => { t with trace := [] }) (runOps Config.params is { s with line := 1 })

/-- R7: the block is the case Drop, Either of the parametric operations, and both OPEN periods are positive. -/
def Obligations.BlockHasDecidedParameters : Prop :=
  Config.params.policy = .drop ∧ Config.params.order = .either ∧
  1 ≤ Config.params.samplingPeriod ∧ 1 ≤ Config.params.pwmPeriod ∧
  ∀ (i : Instr) (s : State), exec i s = execWith Config.params i s

/-! ### The nine operations -/

/-- R79: IDLE is enabled in every state and changes nothing. -/
def Obligations.IdleChangesNothing : Prop := ∀ s : State, exec .idle s = .next s

/-- R71: TICK is enabled in every state, sets TMR_IF and changes nothing else; with TMR_IF set it changes nothing. -/
def Obligations.TickSetsPendingFlag : Prop :=
  ∀ s : State, ∃ t, exec .tick s = .next t ∧ t.tmrIf = true ∧ Effect [.tmrIf] [] 0 s t ∧ (s.tmrIf = true → t = s)

/-- R72: DONE v with a conversion in flight stores the sample, sets ADC_IF, ends the conversion and changes nothing else; without
one it is refused. -/
def Obligations.DoneLatchesSample : Prop :=
  ∀ (v : Sample) (s : State),
    (s.convBusy = true → ∃ t, exec (.done v) s = .next t ∧ t.adres = v ∧ t.adcIf = true ∧ t.convBusy = false ∧
      Effect [.adres, .adcIf, .convBusy] [] 0 s t) ∧
    (s.convBusy = false → exec (.done v) s = .refused (.notEnabled s.line .convBusyClear))

/-- R73: SVCT in Idle clears TMR_IF, emits one adc_start, puts a conversion in flight and goes to Converting, whatever CONV_BUSY
was, in the block (first part) and under every parameter set (second part); with TMR_IF or TMR_IE clear it is refused.
Where both are clear the refusal names TMR_IF, the first in the order of the rule, which is the model's choice (log 10). -/
def Obligations.SvctInIdleStartsConversion : Prop :=
  (∀ s : State,
    (s.tmrIf = true → s.tmrIe = true → s.phase = .idle →
      ∃ t, exec .svct s = .next t ∧ t.tmrIf = false ∧ t.convBusy = true ∧ t.phase = .converting ∧
        Effect [.tmrIf, .convBusy, .phase] [.adcStart] 0 s t) ∧
    (s.tmrIf = false → exec .svct s = .refused (.notEnabled s.line .tmrIfClear)) ∧
    (s.tmrIf = true → s.tmrIe = false → exec .svct s = .refused (.notEnabled s.line .tmrIeClear))) ∧
  ∀ (P : Params) (s : State), s.tmrIf = true → s.tmrIe = true → s.phase = .idle →
    ¬ (P.order = .adcFirst ∧ adcServiceable s = true) →
    ∃ t, execWith P .svct s = .next t ∧ t.tmrIf = false ∧ t.convBusy = true ∧ t.phase = .converting ∧
      Effect [.tmrIf, .convBusy, .phase] [.adcStart] 0 s t

/-- R74: SVCT in Converting, for each RETRIGGER_POLICY; the last clause is the block itself (Drop). -/
def Obligations.SvctInConvertingFollowsPolicy : Prop :=
  (∀ (P : Params) (s : State), s.tmrIf = true → s.tmrIe = true → s.phase = .converting →
    ¬ (P.order = .adcFirst ∧ adcServiceable s = true) →
    (P.policy = .drop → ∃ t, execWith P .svct s = .next t ∧ t.tmrIf = false ∧ Effect [.tmrIf] [] 0 s t) ∧
    (P.policy = .defer → execWith P .svct s = .refused (.notEnabled s.line .deferredWhileConverting)) ∧
    (P.policy = .restart → ∃ t, execWith P .svct s = .next t ∧ t.tmrIf = false ∧ t.convBusy = true ∧
      Effect [.tmrIf, .convBusy] [.adcStart] 0 s t)) ∧
  ∀ s : State, s.tmrIf = true → s.tmrIe = true → s.phase = .converting →
    ∃ t, exec .svct s = .next t ∧ t.tmrIf = false ∧ Effect [.tmrIf] [] 0 s t

/-- R75, R76: SVCA clears ADC_IF, reads ADRES, applies its map, appends that pair to the history and goes to Idle, whatever PHASE
was, and changes nothing else; with ADC_IF or ADC_IE clear it is refused. Where both are clear the refusal names ADC_IF, the first
in the order of the rule, which is the model's choice (log 10). -/
def Obligations.SvcaAppliesMappedSample : Prop :=
  ∀ s : State,
    (s.adcIf = true → s.adcIe = true →
      ∃ t, exec .svca s = .next t ∧ t.adcIf = false ∧ t.phase = .idle ∧
        t.dirOut = dirbits (direction s.adres) ∧ t.duty = magnitude s.adres ∧
        Effect [.dirOut, .duty, .adcIf, .phase] [.apply (dirbits (direction s.adres)) (magnitude s.adres)] 0 s t) ∧
    (s.adcIf = false → exec .svca s = .refused (.notEnabled s.line .adcIfClear)) ∧
    (s.adcIf = true → s.adcIe = false → exec .svca s = .refused (.notEnabled s.line .adcIeClear))

/-- R105: SVC takes exactly one service: the only serviceable one, or the one ARB_ORDER says, or under Either the one picked,
where both picks are steps; after it the other source is still serviceable and the next SVC takes it; with nothing serviceable
it is refused. The Handler
has no other steps: SVCT and SVCA have a next state exactly when some choice of SVC takes that service. The counter that the
open choice advances is the model's own (log 3). -/
def Obligations.SvcTakesExactlyOneService : Prop :=
  ∀ (P : Params) (pick : Service) (s : State),
    (timerServiceable P s = true → adcServiceable s = false → svcWith P pick s = svctWith P s) ∧
    (timerServiceable P s = false → adcServiceable s = true → svcWith P pick s = svcaWith P s) ∧
    (timerServiceable P s = true → adcServiceable s = true →
      (P.order = .timerFirst → svcWith P pick s = svctWith P s) ∧
      (P.order = .adcFirst → svcWith P pick s = svcaWith P s) ∧
      (P.order = .either → svcWith P .timer s = mapNext State.nextDraw (svctWith P s)) ∧
      (P.order = .either → svcWith P .adc s = mapNext State.nextDraw (svcaWith P s)) ∧
      ∀ t, svcWith P pick s = .next t →
        (chosen P pick s = some .timer → adcServiceable t = true ∧ ∀ p, svcWith P p t = svcaWith P t) ∧
        (chosen P pick s = some .adc → timerServiceable P t = true ∧ ∀ p, svcWith P p t = svctWith P t)) ∧
    (timerServiceable P s = false → adcServiceable s = false →
      svcWith P pick s = .refused (.notEnabled s.line .nothingServiceable)) ∧
    ((∃ t, svctWith P s = .next t) ↔ ∃ p, chosen P p s = some .timer) ∧
    ((∃ t, svcaWith P s = .next t) ↔ ∃ p, chosen P p s = some .adc)

/-- R51, R105, R106: SVC of the block completes whenever a source is serviceable. Where only one waits it does what that service
does; where both wait its next state is one of the two services' (the model's draw counter apart), and which one is not said. -/
def Obligations.SvcCompletesWhenServiceable : Prop :=
  ∀ s : State,
    (s.tmrIf = true → s.tmrIe = true → adcServiceable s = false →
      ∃ t, exec .svc s = .next t ∧ exec .svct s = .next t) ∧
    (s.adcIf = true → s.adcIe = true → timerServiceable Config.params s = false →
      ∃ t, exec .svc s = .next t ∧ exec .svca s = .next t) ∧
    (s.tmrIf = true → s.tmrIe = true → s.adcIf = true → s.adcIe = true →
      ∃ t u, exec .svc s = .next t ∧ (exec .svct s = .next u ∨ exec .svca s = .next u) ∧ t = u.nextDraw)

/-- R122: ARM is enabled in every state, sets both enables in one step and changes nothing else; when armed it changes nothing;
with TMR_IF already set, SVCT is enabled at once. No operation leads to a state in which one source is enabled and the other is
not. -/
def Obligations.ArmEnablesBothSources : Prop :=
  (∀ (P : Params) (i : Instr) (s t : State), EnabledTogether s → execWith P i s = .next t → EnabledTogether t) ∧
  ∀ s : State, ∃ t, exec .arm s = .next t ∧ t.tmrIe = true ∧ t.adcIe = true ∧ Effect [.tmrIe, .adcIe] [] 0 s t ∧
    (s.tmrIe = true → s.adcIe = true → t = s) ∧ (s.tmrIf = true → ∃ u, exec .svct t = .next u)

/-- R94: PWMCK counts modulo PWM_PERIOD and touches nothing else, for the block and for every parameter set; with
PWM_PERIOD == 1 the count is 0. -/
def Obligations.PwmckCountsModuloPeriod : Prop :=
  ∀ s : State,
    (∃ t, exec .pwmck s = .next t ∧ t.pwmcnt = (s.pwmcnt + 1) % Config.params.pwmPeriod ∧ Effect [.pwmcnt] [] 0 s t) ∧
    ∀ P : Params, ∃ t, execWith P .pwmck s = .next t ∧ t.pwmcnt = (s.pwmcnt + 1) % P.pwmPeriod ∧
      Effect [.pwmcnt] [] 0 s t ∧ (P.pwmPeriod = 1 → t.pwmcnt = 0)

/-- R120, R24: RESET is enabled in every state and puts every register but ADRES at its stated value; nothing is said of ADRES, which
is unspecified after it; the history is kept; a conversion in flight is abandoned; straight after another RESET it changes
nothing (ADRES stays unspecified). The one draw is the model's own counter (log 2). -/
def Obligations.ResetPutsResetValues : Prop :=
  ∀ s : State, ∃ t, exec .reset s = .next t ∧
    t.dirOut = 0b00 ∧ t.duty = 0x00 ∧ t.phase = .idle ∧ t.tmrIf = false ∧ t.adcIf = false ∧ t.tmrIe = false ∧
    t.adcIe = false ∧ t.convBusy = false ∧ t.pwmcnt = 0 ∧ Effect Reg.all [] 1 s t ∧
    (∀ v, exec (.done v) t = .refused (.notEnabled t.line .convBusyClear)) ∧
    ∃ u, exec .reset t = .next u ∧ Effect [.adres] [] 1 t u

/-- R24: what the spec gives for reset, in the state after reset. ADRES, which the spec leaves unspecified, is not in it. -/
def Obligations.ResetStateHoldsSpecValues : Prop :=
  State.reset.dirOut = 0b00 ∧ State.reset.duty = 0x00 ∧ State.reset.phase = .idle ∧ State.reset.tmrIf = false ∧
  State.reset.adcIf = false ∧ State.reset.tmrIe = false ∧ State.reset.adcIe = false ∧ State.reset.convBusy = false ∧
  State.reset.pwmcnt = 0 ∧ State.reset.history = []

/-! ### Guards, frames, accesses -/

/-- R51: for every parameter set, an operation whose guard holds has a next state, and one whose guard is false is refused, the
refusal naming the line of the trace and a conjunct of the guard of that very operation that is false; the guard holds exactly
where none of its conjuncts fails. A run is refused from such a line on, whatever follows it: the line is not skipped. How lines
are numbered and which of several false conjuncts is named are the model's choices (log 19, log 10), and not in this statement:
the line is the one the state holds. -/
def Obligations.GuardsDecideEnabled : Prop :=
  ∀ (P : Params) (i : Instr) (s : State),
    (Enabled P i s ↔ ∀ g ∈ guardConjuncts i, ¬ g.Fails P s) ∧
    (Enabled P i s → ∃ t, execWith P i s = .next t) ∧
    (¬ Enabled P i s → ∃ g ∈ guardConjuncts i, execWith P i s = .refused (.notEnabled s.line g) ∧ g.Fails P s ∧
      ∀ (before after : List Instr) (r : State), runOps P before r = .next s →
        runOps P (before ++ i :: after) r = .refused (.notEnabled s.line g))

/-- R31: an operation changes no register outside its `w` entries (for every parameter set), and with the decided ARB_ORDER
replacing a register outside its `r` and `g` entries changes neither whether it is enabled nor any other register after it. -/
def Obligations.RegisterAccessTableHolds : Prop :=
  (∀ (P : Params) (i : Instr) (s t : State), execWith P i s = .next t →
    Untouched (mayWrite i) s t ∧ t.trace = s.trace ∧ t.line = s.line) ∧
  (∀ (i : Instr) (s : State) (r : Reg) (n : Nat), r ∉ mayRead i →
    mapNext (r.put 0) (exec i (r.put n s)) = mapNext (r.put 0) (exec i s))

/-- R97: no operation other than a conversion-complete service and RESET changes DIR_OUT or DUTY. -/
def Obligations.OutputsHoldBetweenApplies : Prop :=
  ∀ (P : Params) (i : Instr) (s t : State), execWith P i s = .next t → i ≠ .reset → serviceOf P i s ≠ some .adc →
    t.dirOut = s.dirOut ∧ t.duty = s.duty

/-- R102: each flag is set by its event and by nothing else, and cleared by its service and by RESET and by nothing else. -/
def Obligations.FlagsSetByEventsClearedByServices : Prop :=
  ∀ (P : Params) (i : Instr) (s t : State), execWith P i s = .next t →
    (s.tmrIf = false → t.tmrIf = true → i = .tick) ∧
    (s.tmrIf = true → t.tmrIf = false → serviceOf P i s = some .timer ∨ i = .reset) ∧
    (s.adcIf = false → t.adcIf = true → ∃ v, i = .done v) ∧
    (s.adcIf = true → t.adcIf = false → serviceOf P i s = some .adc ∨ i = .reset) ∧
    (i = .tick → t.tmrIf = true) ∧ (∀ v, i = .done v → t.adcIf = true) ∧
    (serviceOf P i s = some .timer → t.tmrIf = false) ∧ (serviceOf P i s = some .adc → t.adcIf = false) ∧
    (i = .reset → t.tmrIf = false ∧ t.adcIf = false)

/-- R77: the complete transition table of PHASE, and where adc_start is emitted. -/
def Obligations.PhaseFollowsTransitionTable : Prop :=
  ∀ (P : Params) (i : Instr) (s : State),
    (s.phase = .converting → P.policy = .defer → ∀ t, execWith P .svct s ≠ .next t) ∧
    ∀ t, execWith P i s = .next t →
      (serviceOf P i s = some .timer → t.phase = .converting) ∧
      (serviceOf P i s = some .adc → t.phase = .idle) ∧
      (i = .reset → t.phase = .idle) ∧
      (serviceOf P i s = none → i ≠ .reset → t.phase = s.phase) ∧
      (adcStartPulse s t = true ↔ serviceOf P i s = some .timer ∧ (s.phase = .idle ∨ P.policy = .restart))

/-- R19, R78: the converter's contract. A conversion comes to be in flight only by a start request, and every start request leaves
exactly one in flight; it ends by a DONE or is abandoned by a RESET, and every DONE ends one. -/
def Obligations.ConversionInFlightFollowsContract : Prop :=
  ∀ (P : Params) (i : Instr) (s t : State), execWith P i s = .next t →
    (s.convBusy = false → t.convBusy = true → adcStartPulse s t = true) ∧
    (adcStartPulse s t = true → t.convBusy = true) ∧
    (s.convBusy = true → t.convBusy = false → (∃ v, i = .done v) ∨ i = .reset) ∧
    (∀ v, i = .done v → s.convBusy = true ∧ t.convBusy = false)

/-- R6, R36, R135: what each agent can change, an input event being an operation of an environment agent and the Background
touching nothing: no environment agent but the ResetSource writes DIR_OUT, DUTY or PHASE. -/
def Obligations.AgentsWriteOnlyTheirRegisters : Prop :=
  (∀ (P : Params) (i : Instr) (s t : State), execWith P i s = .next t →
    (agentOf i = .background → t = s) ∧
    (agentOf i = .timer → Untouched [.tmrIf] s t) ∧
    (agentOf i = .converter → Untouched [.adres, .adcIf, .convBusy] s t) ∧
    (agentOf i = .configurator → Untouched [.tmrIe, .adcIe] s t) ∧
    (agentOf i = .pwmTimebase → Untouched [.pwmcnt] s t) ∧
    (agentOf i = .handler → Untouched [.dirOut, .duty, .phase, .tmrIf, .adcIf, .convBusy] s t) ∧
    (agentOf i ≠ .handler → t.history = s.history)) ∧
  ∀ ev : InputEvent, contextOf ev.operation = none

/-- R22: what each step appends to the event history, RESET and every operation that takes no service appending nothing; and no
operation reads the history: with another one before it, it does the same and appends the same. -/
def Obligations.HistoryRecordsStartsAndApplies : Prop :=
  (∀ (P : Params) (i : Instr) (s : State) (older : List Event),
    execWith P i { s with history := older ++ s.history } =
      mapNext (fun t => { t with history := older ++ t.history }) (execWith P i s)) ∧
  ∀ (P : Params) (i : Instr) (s t : State), execWith P i s = .next t →
    (serviceOf P i s = none → t.history = s.history) ∧
    (serviceOf P i s = some .timer → s.phase = .idle ∨ P.policy = .restart → t.history = s.history ++ [.adcStart]) ∧
    (serviceOf P i s = some .timer → s.phase = .converting → P.policy = .drop → t.history = s.history) ∧
    (serviceOf P i s = some .adc → t.history = s.history ++ [.apply t.dirOut t.duty] ∧ (t.dirOut, t.duty) = map s.adres)

/-! ### The mapper and the output stage -/

/-- R61, R62, R63, R64: the two functions, on mathematical integers, and the exact narrowing to 8 bits. -/
def Obligations.MapperFollowsFormulas : Prop :=
  ∀ v : Sample,
    (direction v = .forward ↔ v.toNat > 127) ∧ (direction v = .reverse ↔ v.toNat ≤ 127) ∧
    (v.toNat < 127 → ((magnitude v).toNat : Int) = 254 - 2 * (v.toNat : Int)) ∧
    (v.toNat > 128 → ((magnitude v).toNat : Int) = 2 * (v.toNat : Int) - 256) ∧
    (v.toNat = 127 ∨ v.toNat = 128 → (magnitude v).toNat = 0) ∧
    map v = (dirbits (direction v), magnitude v)

/-- R65 (h), R92: the legal pairs of APPLY are exactly the pairs of the mapper, and each comes from exactly one sample. -/
def Obligations.LegalPairsAreMappedOnce : Prop :=
  (∀ v : Sample, applyLegal (map v).1 (map v).2 = true) ∧
  ∀ (d : DirField) (m : Duty), applyLegal d m = true → ∃ v : Sample, map v = (d, m) ∧ ∀ v' : Sample, map v' = (d, m) → v' = v

/-- R66: the equivalent forms that fit an 8-bit datapath. -/
def Obligations.MapperHasEightBitForms : Prop :=
  ∀ v : Sample,
    (direction v = .forward ↔ v.getLsbD 7 = true) ∧
    magnitude v = (if v.getLsbD 7 then v.extractLsb' 0 7 else ~~~ (v.extractLsb' 0 7)) ++ (0#1) ∧
    (v.getLsbD 7 = true → (magnitude v).toNat = 2 * (v.toNat - 128)) ∧
    (v.getLsbD 7 = false → (magnitude v).toNat = 2 * (127 - v.toNat)) ∧
    (v.toNat ≤ 127 → magnitude v = ~~~ v <<< 1) ∧ (v.toNat ≥ 128 → magnitude v = v <<< 1) ∧
    (v.getLsbD 7 = true → map v = (0b01, v.extractLsb' 0 7 ++ 0#1)) ∧
    (v.getLsbD 7 = false → map v = (0b10, ~~~ (v.extractLsb' 0 7) ++ 0#1))

/-- R91: APPLY with a Direction pattern and a Magnitude writes both outputs in one step, the output signals with them, appends one
event and changes nothing else; writing the values the registers hold appends the event all the same. -/
def Obligations.ApplyWritesBothOutputs : Prop :=
  ∀ (d : DirField) (m : Duty) (s : State), (d = 0b01 ∨ d = 0b10) → m.toNat % 2 = 0 → m.toNat ≤ 254 →
    ∃ t, applyPair d m s = .next t ∧ t.dirOut = d ∧ t.duty = m ∧ (outputs t).dirOut = d ∧ (outputs t).duty = m ∧
      Effect [.dirOut, .duty] [.apply d m] 0 s t ∧
      (s.dirOut = d → s.duty = m → Untouched [] s t ∧ t.history = s.history ++ [.apply d m])

/-- Log 11, after R92: APPLY on its own refuses a direction pattern 00 or 11, a duty of 255 and an odd duty, and SVCA never hands
it such a pair. -/
def Obligations.ApplyRefusesOutsideItsContract : Prop :=
  (∀ (d : DirField) (m : Duty) (s : State), (d = 0b00 ∨ d = 0b11 ∨ m = 255 ∨ m.toNat % 2 = 1) →
    applyPair d m s = .refused (.applyArguments d m)) ∧
  ∀ (P : Params) (s : State) (d : DirField) (m : Duty), execWith P .svca s ≠ .refused (.applyArguments d m)

/-! ### Invariants -/

/-- Every step of the block keeps the invariant: legal outputs (R25), PHASE coupled to the conversion (R26 (a), (b)), both enables
together (R122), PWMCNT in range (R93). -/
def Obligations.StepKeepsInvariant : Prop :=
  ∀ s t : State, Inv Config.params s → step s = .next t → Inv Config.params t

/-- The state after reset meets the invariant. -/
def Obligations.ResetMeetsInvariant : Prop := Inv Config.params State.reset

/-- R25 (a), (b), (c) as an invariant of every operation under every RETRIGGER_POLICY and ARB_ORDER, and what it says: DIR_OUT is
never 11, DUTY is even and at most 254, and is 0 while DIR_OUT is 00. -/
def Obligations.OutputsStayLegalUnderEveryPolicy : Prop :=
  (∀ (P : Params) (i : Instr) (s t : State), OutputsLegal s → execWith P i s = .next t → OutputsLegal t) ∧
  ∀ s : State, OutputsLegal s → s.dirOut ≠ 0b11 ∧ s.duty.toNat % 2 = 0 ∧ s.duty.toNat ≤ 254 ∧
    (s.dirOut = 0b00 → s.duty = 0)

/-- R25: in every run from a RESET, under every policy and order, the outputs are the map of the value ADRES held at the most recent
conversion-complete service since that RESET, and are 00 and 0 exactly when there was none. -/
def Obligations.OutputsAreLastServedSample : Prop :=
  ∀ (P : Params) (ops : List Instr) (s r t : State),
    execWith P .reset s = .next r → Instr.reset ∉ ops → runOps P ops r = .next t →
    (t.dirOut = 0b00 ∨ t.dirOut = 0b01 ∨ t.dirOut = 0b10) ∧
    t.duty.toNat % 2 = 0 ∧ t.duty.toNat ≤ 254 ∧
    (t.dirOut = 0b00 ↔ servedSamples P ops r = []) ∧ (t.dirOut = 0b00 → t.duty = 0) ∧
    ∀ v, (servedSamples P ops r).getLast? = some v →
      (t.dirOut, t.duty) = (dirbits (direction v), magnitude v) ∧
      (t.dirOut = 0b01 → v.toNat ≥ 128) ∧ (t.dirOut = 0b10 → v.toNat ≤ 127)

/-- R26 (a), (b), (c): for Drop, for Defer, and for Restart with AdcFirst, every operation keeps "never in flight and completed at
once, and Converting exactly when one of the two", RESET establishes it, and every DONE finds ADC_IF == 0. -/
def Obligations.SchedulerStaysCoupled : Prop :=
  ∀ P : Params, (P.policy ≠ .restart ∨ P.order = .adcFirst) →
    (∀ (i : Instr) (s t : State), SchedulerCoupled s → EnabledTogether s → execWith P i s = .next t →
      SchedulerCoupled t ∧ EnabledTogether t) ∧
    (∀ s t : State, execWith P .reset s = .next t → SchedulerCoupled t ∧ EnabledTogether t) ∧
    (∀ (v : Sample) (s t : State), SchedulerCoupled s → execWith P (.done v) s = .next t → s.adcIf = false)

/-- R26 (d): under Drop and Defer, adc_start and apply alternate strictly, beginning with adc_start, in every run from a RESET in
which no further RESET intervenes. -/
def Obligations.StartsAndAppliesAlternate : Prop :=
  ∀ (P : Params) (ops : List Instr) (s r t : State), P.policy ≠ .restart →
    execWith P .reset s = .next r → Instr.reset ∉ ops → runOps P ops r = .next t →
    ∃ gained, t.history = r.history ++ gained ∧ Alternates true gained

/-- R26, last part: under Restart with Either or TimerFirst the coupling does fail: from every state a run reaches a state with a
conversion in flight and a completed one waiting, and goes on to one with PHASE == Idle and a conversion in flight. -/
def Obligations.RestartBreaksCoupling : Prop :=
  ∀ (P : Params) (s : State), P.policy = .restart → P.order ≠ .adcFirst →
    ∃ ops t u, runOps P ops s = .next t ∧ t.convBusy = true ∧ t.adcIf = true ∧
      execWith P .svca t = .next u ∧ u.phase = .idle ∧ u.convBusy = true

/-- R27: the value that an unspecified ADRES holds after RESET is never observed. Replace it by any other: every run is enabled or
refused just as before, with the same history and the same outputs, and the end states differ at most in an ADRES that still
nothing reads. -/
def Obligations.UnspecifiedAdresNeverObserved : Prop :=
  ∀ (P : Params) (ops : List Instr) (s r : State) (a : Sample), execWith P .reset s = .next r →
    (∀ t, runOps P ops r = .next t → ∃ t', runOps P ops { r with adres := a } = .next t' ∧
      t'.history = t.history ∧ outputs t' = outputs t ∧ AdresUnobserved t t') ∧
    (∀ why, runOps P ops r = .refused why → runOps P ops { r with adres := a } = .refused why)

/-! ### Runs -/

/-- R80: under Drop and Defer, in every run from a RESET in which every DONE has been followed by its service, the pairs forwarded
to the outputs are the map of the samples, in order; under every policy they are the map of a subsequence of them. -/
def Obligations.AppliedPairsAreMappedSamples : Prop :=
  ∀ (P : Params) (ops : List Instr) (s r t : State), execWith P .reset s = .next r → runOps P ops r = .next t →
    ∃ gained, t.history = r.history ++ gained ∧
      (applied gained).Sublist ((doneSamples ops).map map) ∧
      (P.policy ≠ .restart → NoneDiscarded P ops r → t.adcIf = false →
        applied gained = (doneSamples ops).map map)

/-- R50: the pseudo-operations, as words and as runs, under every parameter set. -/
def Obligations.PseudoOperationsExpand : Prop :=
  (wordsOf [.boot] = [0xF00, 0x600]) ∧
  (∀ n, wordsOf [.pwmrun n] = List.replicate n 0x700) ∧
  (∀ n, n ≤ 255 → wordsOf [.sample n] = [0x100, 0x300, 0x200 + BitVec.ofNat 12 n, 0x400]) ∧
  (∀ (P : Params) (s : State), ∃ t, runOps P (TraceLine.expand .boot) s = .next t ∧ BootState t) ∧
  (∀ (P : Params) (n : Nat) (s : State), PwmInRange P s →
    ∃ t, runOps P (TraceLine.expand (.pwmrun n)) s = .next t ∧ t.pwmcnt = (s.pwmcnt + n) % P.pwmPeriod ∧
      Untouched [.pwmcnt] s t ∧ t.history = s.history) ∧
  (∀ (P : Params) (v : Nat) (s : State), v ≤ 255 → s.tmrIe = true → s.adcIe = true → s.phase = .idle →
    s.adcIf = false → s.convBusy = false →
    ∃ t, runOps P (TraceLine.expand (.sample v)) s = .next t ∧ t.tmrIf = false ∧ t.adres.toNat = v ∧
      (t.dirOut, t.duty) = map t.adres ∧ Untouched [.tmrIf, .adres, .dirOut, .duty] s t ∧
      t.history = s.history ++ [.adcStart, .apply t.dirOut t.duty])

/-- R129, R80: from a boot state any sequence of samples is accepted and applied one by one, each pair a function of its own sample,
with no ramp and nothing carried over: full reverse is followed by full forward at once if the samples say so. -/
def Obligations.SampleSequenceIsAppliedPointwise : Prop :=
  ∀ (P : Params) (vs : List Sample) (s : State), BootState s →
    ∃ t, runOps P (vs.flatMap fun v => TraceLine.expand (.sample v.toNat)) s = .next t ∧ BootState t ∧
      t.history = s.history ++ vs.flatMap fun v => [.adcStart, .apply (dirbits (direction v)) (magnitude v)]

/-- R121: after a RESET and until an ARM, no service is enabled and no DONE can occur, whatever else happens; the outputs show 00,
0 and a waveform of 0. -/
def Obligations.NothingIsServicedBeforeArm : Prop :=
  ∀ (P : Params) (ops : List Instr) (s r t : State),
    execWith P .reset s = .next r → Instr.arm ∉ ops → runOps P ops r = .next t →
    ¬ Enabled P .svct t ∧ ¬ Enabled P .svca t ∧ ¬ Enabled P .svc t ∧ (∀ v, ¬ Enabled P (.done v) t) ∧
    outputs t = ⟨0b00, 0x00, false⟩

/-- R107, R127: the order of service is observable. With both sources serviceable in a coupled state under the decided parameters,
timer first drops the period and ends in Idle with nothing in flight; converter first ends in Converting with a new conversion;
the outputs are the same. Under Defer every ARB_ORDER and every choice takes the conversion-complete service. -/
def Obligations.ServiceOrderIsObservable : Prop :=
  (∀ s : State, SchedulerCoupled s → timerServiceable Config.params s = true → adcServiceable s = true →
    s.phase = .converting ∧
    (∃ a b, exec .svct s = .next a ∧ exec .svca a = .next b ∧ b.phase = .idle ∧ b.convBusy = false ∧
      (b.dirOut, b.duty) = map s.adres ∧ b.history = s.history ++ [.apply b.dirOut b.duty]) ∧
    (∃ a b, exec .svca s = .next a ∧ exec .svct a = .next b ∧ b.phase = .converting ∧ b.convBusy = true ∧
      (b.dirOut, b.duty) = map s.adres ∧ b.history = s.history ++ [.apply b.dirOut b.duty, .adcStart])) ∧
  (∀ (P : Params) (pick : Service) (s : State), P.policy = .defer → SchedulerCoupled s →
    s.tmrIf = true → s.tmrIe = true → s.adcIf = true → s.adcIe = true →
    ∃ a b, svcWith P pick s = .next a ∧ svcWith P pick a = .next b ∧ b.phase = .converting ∧ b.convBusy = true ∧
      (b.dirOut, b.duty) = map s.adres ∧ b.history = s.history ++ [.apply b.dirOut b.duty, .adcStart])

/-- R126: two TICKs with no SVCT between them leave one pending event and cause one service: the second TICK changes nothing, and
straight after the one SVCT another is refused. The operations between are any that take no period-elapsed service and do not
reset; an SVC that takes the conversion-complete service is among them. -/
def Obligations.CoalescedPeriodsAreServicedOnce : Prop :=
  ∀ (ops : List Instr) (s a m : State), exec .tick s = .next a →
    TakesNone Config.params .timer ops a → Instr.reset ∉ ops → runOps Config.params ops a = .next m →
    exec .tick m = .next m ∧
    ∀ c, exec .svct m = .next c → exec .svct c = .refused (.notEnabled c.line .tmrIfClear)

/-- R134: in a quiescent state the Handler and the Converter have no step, and only TICK, ARM, PWMCK and RESET can change
anything. -/
def Obligations.QuiescentWaitsForEnvironment : Prop :=
  ∀ (P : Params) (i : Instr) (s t : State), Quiescent P s → execWith P i s = .next t →
    (i = .idle ∧ t = s) ∨ i = .tick ∨ i = .arm ∨ i = .pwmck ∨ i = .reset

/-! ### The waveform (optional part) -/

/-- R93: the time base returns to where it was after PWM_PERIOD counts, and stays in range at each of them. -/
def Obligations.TimeBaseReturnsAfterOnePeriod : Prop :=
  ∀ (P : Params) (s : State), PwmInRange P s →
    runOps P (List.replicate P.pwmPeriod .pwmck) s = .next { s with line := s.line + P.pwmPeriod } ∧
    ∀ n, ∃ t, runOps P (List.replicate n .pwmck) s = .next t ∧ PwmInRange P t ∧ t.pwmcnt = (s.pwmcnt + n) % P.pwmPeriod

/-- R96: over one whole PWM period with DUTY unchanged, `pwm_out` is 1 for min(DUTY, PWM_PERIOD) counts, in one run at the start of
the period. -/
def Obligations.WaveformHighTimeIsDuty : Prop :=
  ∀ (P : Params) (s : State), s.pwmcnt = 0 →
    pwmWave P P.pwmPeriod s =
      List.replicate (min s.duty.toNat P.pwmPeriod) true ++
        List.replicate (P.pwmPeriod - min s.duty.toNat P.pwmPeriod) false

/-- R95: `pwm_out` compares the current values of both registers, unbuffered: in the very step that applies a sample it follows the
new duty, rising again or being cut short (R130). -/
def Obligations.DutyChangeActsAtOnce : Prop :=
  (∀ s : State, (outputs s).pwmOut = true ↔ s.pwmcnt < s.duty.toNat) ∧
  ∀ (P : Params) (i : Instr) (s t : State), execWith P i s = .next t → serviceOf P i s = some .adc →
    t.pwmcnt = s.pwmcnt ∧
    (s.pwmcnt < (magnitude s.adres).toNat → pwmOut t = true) ∧
    ((magnitude s.adres).toNat ≤ s.pwmcnt → pwmOut t = false)

/-! ### Liveness (R113, R132) -/

/-- R113 (a), (b): under Drop and Defer, with a fair Handler and a converter that makes progress, and no RESET from there on, the
conversion in flight at step n of an armed and coupled state ends in the first DONE v from n on, and at the first
conversion-complete service after that the outputs become map(v). -/
def Obligations.StartedConversionIsApplied : Prop :=
  ∀ (P : Params) (e : Execution P) (n : Nat), P.policy ≠ .restart →
    e.HandlerFair → e.ConverterProgress → e.NoResetFrom n →
    SchedulerCoupled (e.st n) → (e.st n).tmrIe = true → (e.st n).adcIe = true → (e.st n).convBusy = true →
    ∃ m v k, n ≤ m ∧ e.op m = .done v ∧ (∀ j, n ≤ j → j < m → ∀ w, e.op j ≠ .done w) ∧
      m < k ∧ e.Takes .adc k ∧ (∀ j, m < j → j < k → ¬ e.Takes .adc j) ∧
      ((e.st (k + 1)).dirOut, (e.st (k + 1)).duty) = map v

/-- R132: Drop and Defer cannot starve. Under the three fairness assumptions and without RESET, an armed and coupled block applies
samples again and again without end. -/
def Obligations.SamplingNeverStarvesWithoutRestart : Prop :=
  ∀ (P : Params) (e : Execution P) (n : Nat), P.policy ≠ .restart →
    e.HandlerFair → e.ConverterProgress → e.TimerProgress → e.NoResetFrom n →
    SchedulerCoupled (e.st n) → (e.st n).tmrIe = true → (e.st n).adcIe = true →
    ∀ m, n ≤ m → ∃ k, m ≤ k ∧ e.Takes .adc k

/-- R132: Restart can starve. With a conversion in flight, `TICK ; SVCT` can be taken any number of times: each restarts the
conversion, nothing is ever applied and the outputs never change. -/
def Obligations.RestartCanStarve : Prop :=
  ∀ (P : Params) (n : Nat) (s : State), P.policy = .restart → s.tmrIe = true → s.phase = .converting →
    s.convBusy = true → s.adcIf = false →
    ∃ t, runOps P (List.replicate n [Instr.tick, Instr.svct]).flatten s = .next t ∧
      t.history = s.history ++ List.replicate n .adcStart ∧ t.dirOut = s.dirOut ∧ t.duty = s.duty ∧
      t.convBusy = true ∧ t.adcIf = false

/-! ### Trace text -/

/-- R49, R50: texts and their words, and lines that are refused. The first text is program P1 of spec/95_test_vectors.md section 7; the
last clauses are two refused traces of its program P8, as text or as words, from any start state. The other texts are the
model's own. That a lower-case mnemonic, an operand that is missing and one where there is none refuse the text is the model's
choice (log 14), and so is the line number in a refusal, which counts event words (log 19). -/
def Obligations.TraceTextAssembles : Prop :=
  assemble "BOOT            ; RESET, ARM\nSAMPLE 0        ; TICK, SVCT, DONE 0, SVCA" =
    some [0xF00, 0x600, 0x100, 0x300, 0x200, 0x400] ∧
  assemble "BOOT\n\nTICK\nSVCT\nDONE 0xC8\nSVCA" = some [0xF00, 0x600, 0x100, 0x300, 0x2C8, 0x400] ∧
  assemble "PWMRUN 3" = some [0x700, 0x700, 0x700] ∧
  assemble "DONE 255" = some [0x2FF] ∧ assemble "DONE 256" = none ∧ assemble "DONE" = none ∧ assemble "tick" = none ∧
  assemble "ARM 1" = none ∧
  assemble "BOOT\nDONE 5" = some [0xF00, 0x600, 0x205] ∧
  (∀ s : State, runTrace [0xF00, 0x600, 0x205] s = .refused (.notEnabled 3 .convBusyClear)) ∧
  ∀ s : State, runTrace [0xF00, 0x601] s = .refused (.invalidWord 2 0x601 .nonZeroArg)
end

