-- ==== Sys2Proof/Laws/State.lean ====
section
/-! SUPPORT. One lemma per field per named write of Machine/Ops.lean, true by rfl, so that no proof unfolds a record update. -/
namespace Sys2Proof.Machine
namespace State
variable (s : State)

@[simp] theorem setAdres_adres (v : Sample) : (s.setAdres v).adres = v := rfl
@[simp] theorem setAdres_dirOut (v : Sample) : (s.setAdres v).dirOut = s.dirOut := rfl
@[simp] theorem setAdres_duty (v : Sample) : (s.setAdres v).duty = s.duty := rfl
@[simp] theorem setAdres_phase (v : Sample) : (s.setAdres v).phase = s.phase := rfl
@[simp] theorem setAdres_tmrIf (v : Sample) : (s.setAdres v).tmrIf = s.tmrIf := rfl
@[simp] theorem setAdres_adcIf (v : Sample) : (s.setAdres v).adcIf = s.adcIf := rfl
@[simp] theorem setAdres_tmrIe (v : Sample) : (s.setAdres v).tmrIe = s.tmrIe := rfl
@[simp] theorem setAdres_adcIe (v : Sample) : (s.setAdres v).adcIe = s.adcIe := rfl
@[simp] theorem setAdres_convBusy (v : Sample) : (s.setAdres v).convBusy = s.convBusy := rfl
@[simp] theorem setAdres_pwmcnt (v : Sample) : (s.setAdres v).pwmcnt = s.pwmcnt := rfl
@[simp] theorem setAdres_history (v : Sample) : (s.setAdres v).history = s.history := rfl
@[simp] theorem setAdres_draws (v : Sample) : (s.setAdres v).draws = s.draws := rfl
@[simp] theorem setAdres_trace (v : Sample) : (s.setAdres v).trace = s.trace := rfl
@[simp] theorem setAdres_line (v : Sample) : (s.setAdres v).line = s.line := rfl

@[simp] theorem setOutputs_adres (d : DirField) (m : Duty) : (s.setOutputs d m).adres = s.adres := rfl
@[simp] theorem setOutputs_dirOut (d : DirField) (m : Duty) : (s.setOutputs d m).dirOut = d := rfl
@[simp] theorem setOutputs_duty (d : DirField) (m : Duty) : (s.setOutputs d m).duty = m := rfl
@[simp] theorem setOutputs_phase (d : DirField) (m : Duty) : (s.setOutputs d m).phase = s.phase := rfl
@[simp] theorem setOutputs_tmrIf (d : DirField) (m : Duty) : (s.setOutputs d m).tmrIf = s.tmrIf := rfl
@[simp] theorem setOutputs_adcIf (d : DirField) (m : Duty) : (s.setOutputs d m).adcIf = s.adcIf := rfl
@[simp] theorem setOutputs_tmrIe (d : DirField) (m : Duty) : (s.setOutputs d m).tmrIe = s.tmrIe := rfl
@[simp] theorem setOutputs_adcIe (d : DirField) (m : Duty) : (s.setOutputs d m).adcIe = s.adcIe := rfl
@[simp] theorem setOutputs_convBusy (d : DirField) (m : Duty) : (s.setOutputs d m).convBusy = s.convBusy := rfl
@[simp] theorem setOutputs_pwmcnt (d : DirField) (m : Duty) : (s.setOutputs d m).pwmcnt = s.pwmcnt := rfl
@[simp] theorem setOutputs_history (d : DirField) (m : Duty) : (s.setOutputs d m).history = s.history := rfl
@[simp] theorem setOutputs_draws (d : DirField) (m : Duty) : (s.setOutputs d m).draws = s.draws := rfl
@[simp] theorem setOutputs_trace (d : DirField) (m : Duty) : (s.setOutputs d m).trace = s.trace := rfl
@[simp] theorem setOutputs_line (d : DirField) (m : Duty) : (s.setOutputs d m).line = s.line := rfl

@[simp] theorem setPhase_adres (p : Phase) : (s.setPhase p).adres = s.adres := rfl
@[simp] theorem setPhase_dirOut (p : Phase) : (s.setPhase p).dirOut = s.dirOut := rfl
@[simp] theorem setPhase_duty (p : Phase) : (s.setPhase p).duty = s.duty := rfl
@[simp] theorem setPhase_phase (p : Phase) : (s.setPhase p).phase = p := rfl
@[simp] theorem setPhase_tmrIf (p : Phase) : (s.setPhase p).tmrIf = s.tmrIf := rfl
@[simp] theorem setPhase_adcIf (p : Phase) : (s.setPhase p).adcIf = s.adcIf := rfl
@[simp] theorem setPhase_tmrIe (p : Phase) : (s.setPhase p).tmrIe = s.tmrIe := rfl
@[simp] theorem setPhase_adcIe (p : Phase) : (s.setPhase p).adcIe = s.adcIe := rfl
@[simp] theorem setPhase_convBusy (p : Phase) : (s.setPhase p).convBusy = s.convBusy := rfl
@[simp] theorem setPhase_pwmcnt (p : Phase) : (s.setPhase p).pwmcnt = s.pwmcnt := rfl
@[simp] theorem setPhase_history (p : Phase) : (s.setPhase p).history = s.history := rfl
@[simp] theorem setPhase_draws (p : Phase) : (s.setPhase p).draws = s.draws := rfl
@[simp] theorem setPhase_trace (p : Phase) : (s.setPhase p).trace = s.trace := rfl
@[simp] theorem setPhase_line (p : Phase) : (s.setPhase p).line = s.line := rfl

@[simp] theorem setTmrIf_adres (b : Bool) : (s.setTmrIf b).adres = s.adres := rfl
@[simp] theorem setTmrIf_dirOut (b : Bool) : (s.setTmrIf b).dirOut = s.dirOut := rfl
@[simp] theorem setTmrIf_duty (b : Bool) : (s.setTmrIf b).duty = s.duty := rfl
@[simp] theorem setTmrIf_phase (b : Bool) : (s.setTmrIf b).phase = s.phase := rfl
@[simp] theorem setTmrIf_tmrIf (b : Bool) : (s.setTmrIf b).tmrIf = b := rfl
@[simp] theorem setTmrIf_adcIf (b : Bool) : (s.setTmrIf b).adcIf = s.adcIf := rfl
@[simp] theorem setTmrIf_tmrIe (b : Bool) : (s.setTmrIf b).tmrIe = s.tmrIe := rfl
@[simp] theorem setTmrIf_adcIe (b : Bool) : (s.setTmrIf b).adcIe = s.adcIe := rfl
@[simp] theorem setTmrIf_convBusy (b : Bool) : (s.setTmrIf b).convBusy = s.convBusy := rfl
@[simp] theorem setTmrIf_pwmcnt (b : Bool) : (s.setTmrIf b).pwmcnt = s.pwmcnt := rfl
@[simp] theorem setTmrIf_history (b : Bool) : (s.setTmrIf b).history = s.history := rfl
@[simp] theorem setTmrIf_draws (b : Bool) : (s.setTmrIf b).draws = s.draws := rfl
@[simp] theorem setTmrIf_trace (b : Bool) : (s.setTmrIf b).trace = s.trace := rfl
@[simp] theorem setTmrIf_line (b : Bool) : (s.setTmrIf b).line = s.line := rfl

@[simp] theorem setAdcIf_adres (b : Bool) : (s.setAdcIf b).adres = s.adres := rfl
@[simp] theorem setAdcIf_dirOut (b : Bool) : (s.setAdcIf b).dirOut = s.dirOut := rfl
@[simp] theorem setAdcIf_duty (b : Bool) : (s.setAdcIf b).duty = s.duty := rfl
@[simp] theorem setAdcIf_phase (b : Bool) : (s.setAdcIf b).phase = s.phase := rfl
@[simp] theorem setAdcIf_tmrIf (b : Bool) : (s.setAdcIf b).tmrIf = s.tmrIf := rfl
@[simp] theorem setAdcIf_adcIf (b : Bool) : (s.setAdcIf b).adcIf = b := rfl
@[simp] theorem setAdcIf_tmrIe (b : Bool) : (s.setAdcIf b).tmrIe = s.tmrIe := rfl
@[simp] theorem setAdcIf_adcIe (b : Bool) : (s.setAdcIf b).adcIe = s.adcIe := rfl
@[simp] theorem setAdcIf_convBusy (b : Bool) : (s.setAdcIf b).convBusy = s.convBusy := rfl
@[simp] theorem setAdcIf_pwmcnt (b : Bool) : (s.setAdcIf b).pwmcnt = s.pwmcnt := rfl
@[simp] theorem setAdcIf_history (b : Bool) : (s.setAdcIf b).history = s.history := rfl
@[simp] theorem setAdcIf_draws (b : Bool) : (s.setAdcIf b).draws = s.draws := rfl
@[simp] theorem setAdcIf_trace (b : Bool) : (s.setAdcIf b).trace = s.trace := rfl
@[simp] theorem setAdcIf_line (b : Bool) : (s.setAdcIf b).line = s.line := rfl

@[simp] theorem setEnables_adres (b : Bool) : (s.setEnables b).adres = s.adres := rfl
@[simp] theorem setEnables_dirOut (b : Bool) : (s.setEnables b).dirOut = s.dirOut := rfl
@[simp] theorem setEnables_duty (b : Bool) : (s.setEnables b).duty = s.duty := rfl
@[simp] theorem setEnables_phase (b : Bool) : (s.setEnables b).phase = s.phase := rfl
@[simp] theorem setEnables_tmrIf (b : Bool) : (s.setEnables b).tmrIf = s.tmrIf := rfl
@[simp] theorem setEnables_adcIf (b : Bool) : (s.setEnables b).adcIf = s.adcIf := rfl
@[simp] theorem setEnables_tmrIe (b : Bool) : (s.setEnables b).tmrIe = b := rfl
@[simp] theorem setEnables_adcIe (b : Bool) : (s.setEnables b).adcIe = b := rfl
@[simp] theorem setEnables_convBusy (b : Bool) : (s.setEnables b).convBusy = s.convBusy := rfl
@[simp] theorem setEnables_pwmcnt (b : Bool) : (s.setEnables b).pwmcnt = s.pwmcnt := rfl
@[simp] theorem setEnables_history (b : Bool) : (s.setEnables b).history = s.history := rfl
@[simp] theorem setEnables_draws (b : Bool) : (s.setEnables b).draws = s.draws := rfl
@[simp] theorem setEnables_trace (b : Bool) : (s.setEnables b).trace = s.trace := rfl
@[simp] theorem setEnables_line (b : Bool) : (s.setEnables b).line = s.line := rfl

@[simp] theorem setConvBusy_adres (b : Bool) : (s.setConvBusy b).adres = s.adres := rfl
@[simp] theorem setConvBusy_dirOut (b : Bool) : (s.setConvBusy b).dirOut = s.dirOut := rfl
@[simp] theorem setConvBusy_duty (b : Bool) : (s.setConvBusy b).duty = s.duty := rfl
@[simp] theorem setConvBusy_phase (b : Bool) : (s.setConvBusy b).phase = s.phase := rfl
@[simp] theorem setConvBusy_tmrIf (b : Bool) : (s.setConvBusy b).tmrIf = s.tmrIf := rfl
@[simp] theorem setConvBusy_adcIf (b : Bool) : (s.setConvBusy b).adcIf = s.adcIf := rfl
@[simp] theorem setConvBusy_tmrIe (b : Bool) : (s.setConvBusy b).tmrIe = s.tmrIe := rfl
@[simp] theorem setConvBusy_adcIe (b : Bool) : (s.setConvBusy b).adcIe = s.adcIe := rfl
@[simp] theorem setConvBusy_convBusy (b : Bool) : (s.setConvBusy b).convBusy = b := rfl
@[simp] theorem setConvBusy_pwmcnt (b : Bool) : (s.setConvBusy b).pwmcnt = s.pwmcnt := rfl
@[simp] theorem setConvBusy_history (b : Bool) : (s.setConvBusy b).history = s.history := rfl
@[simp] theorem setConvBusy_draws (b : Bool) : (s.setConvBusy b).draws = s.draws := rfl
@[simp] theorem setConvBusy_trace (b : Bool) : (s.setConvBusy b).trace = s.trace := rfl
@[simp] theorem setConvBusy_line (b : Bool) : (s.setConvBusy b).line = s.line := rfl

@[simp] theorem setPwmcnt_adres (n : Nat) : (s.setPwmcnt n).adres = s.adres := rfl
@[simp] theorem setPwmcnt_dirOut (n : Nat) : (s.setPwmcnt n).dirOut = s.dirOut := rfl
@[simp] theorem setPwmcnt_duty (n : Nat) : (s.setPwmcnt n).duty = s.duty := rfl
@[simp] theorem setPwmcnt_phase (n : Nat) : (s.setPwmcnt n).phase = s.phase := rfl
@[simp] theorem setPwmcnt_tmrIf (n : Nat) : (s.setPwmcnt n).tmrIf = s.tmrIf := rfl
@[simp] theorem setPwmcnt_adcIf (n : Nat) : (s.setPwmcnt n).adcIf = s.adcIf := rfl
@[simp] theorem setPwmcnt_tmrIe (n : Nat) : (s.setPwmcnt n).tmrIe = s.tmrIe := rfl
@[simp] theorem setPwmcnt_adcIe (n : Nat) : (s.setPwmcnt n).adcIe = s.adcIe := rfl
@[simp] theorem setPwmcnt_convBusy (n : Nat) : (s.setPwmcnt n).convBusy = s.convBusy := rfl
@[simp] theorem setPwmcnt_pwmcnt (n : Nat) : (s.setPwmcnt n).pwmcnt = n := rfl
@[simp] theorem setPwmcnt_history (n : Nat) : (s.setPwmcnt n).history = s.history := rfl
@[simp] theorem setPwmcnt_draws (n : Nat) : (s.setPwmcnt n).draws = s.draws := rfl
@[simp] theorem setPwmcnt_trace (n : Nat) : (s.setPwmcnt n).trace = s.trace := rfl
@[simp] theorem setPwmcnt_line (n : Nat) : (s.setPwmcnt n).line = s.line := rfl

@[simp] theorem emit_adres (e : Event) : (s.emit e).adres = s.adres := rfl
@[simp] theorem emit_dirOut (e : Event) : (s.emit e).dirOut = s.dirOut := rfl
@[simp] theorem emit_duty (e : Event) : (s.emit e).duty = s.duty := rfl
@[simp] theorem emit_phase (e : Event) : (s.emit e).phase = s.phase := rfl
@[simp] theorem emit_tmrIf (e : Event) : (s.emit e).tmrIf = s.tmrIf := rfl
@[simp] theorem emit_adcIf (e : Event) : (s.emit e).adcIf = s.adcIf := rfl
@[simp] theorem emit_tmrIe (e : Event) : (s.emit e).tmrIe = s.tmrIe := rfl
@[simp] theorem emit_adcIe (e : Event) : (s.emit e).adcIe = s.adcIe := rfl
@[simp] theorem emit_convBusy (e : Event) : (s.emit e).convBusy = s.convBusy := rfl
@[simp] theorem emit_pwmcnt (e : Event) : (s.emit e).pwmcnt = s.pwmcnt := rfl
@[simp] theorem emit_history (e : Event) : (s.emit e).history = s.history ++ [e] := rfl
@[simp] theorem emit_draws (e : Event) : (s.emit e).draws = s.draws := rfl
@[simp] theorem emit_trace (e : Event) : (s.emit e).trace = s.trace := rfl
@[simp] theorem emit_line (e : Event) : (s.emit e).line = s.line := rfl

@[simp] theorem nextDraw_adres : (s.nextDraw).adres = s.adres := rfl
@[simp] theorem nextDraw_dirOut : (s.nextDraw).dirOut = s.dirOut := rfl
@[simp] theorem nextDraw_duty : (s.nextDraw).duty = s.duty := rfl
@[simp] theorem nextDraw_phase : (s.nextDraw).phase = s.phase := rfl
@[simp] theorem nextDraw_tmrIf : (s.nextDraw).tmrIf = s.tmrIf := rfl
@[simp] theorem nextDraw_adcIf : (s.nextDraw).adcIf = s.adcIf := rfl
@[simp] theorem nextDraw_tmrIe : (s.nextDraw).tmrIe = s.tmrIe := rfl
@[simp] theorem nextDraw_adcIe : (s.nextDraw).adcIe = s.adcIe := rfl
@[simp] theorem nextDraw_convBusy : (s.nextDraw).convBusy = s.convBusy := rfl
@[simp] theorem nextDraw_pwmcnt : (s.nextDraw).pwmcnt = s.pwmcnt := rfl
@[simp] theorem nextDraw_history : (s.nextDraw).history = s.history := rfl
@[simp] theorem nextDraw_draws : (s.nextDraw).draws = s.draws + 1 := rfl
@[simp] theorem nextDraw_trace : (s.nextDraw).trace = s.trace := rfl
@[simp] theorem nextDraw_line : (s.nextDraw).line = s.line := rfl

@[simp] theorem advance_adres (rest : List EventWord) : (s.advance rest).adres = s.adres := rfl
@[simp] theorem advance_dirOut (rest : List EventWord) : (s.advance rest).dirOut = s.dirOut := rfl
@[simp] theorem advance_duty (rest : List EventWord) : (s.advance rest).duty = s.duty := rfl
@[simp] theorem advance_phase (rest : List EventWord) : (s.advance rest).phase = s.phase := rfl
@[simp] theorem advance_tmrIf (rest : List EventWord) : (s.advance rest).tmrIf = s.tmrIf := rfl
@[simp] theorem advance_adcIf (rest : List EventWord) : (s.advance rest).adcIf = s.adcIf := rfl
@[simp] theorem advance_tmrIe (rest : List EventWord) : (s.advance rest).tmrIe = s.tmrIe := rfl
@[simp] theorem advance_adcIe (rest : List EventWord) : (s.advance rest).adcIe = s.adcIe := rfl
@[simp] theorem advance_convBusy (rest : List EventWord) : (s.advance rest).convBusy = s.convBusy := rfl
@[simp] theorem advance_pwmcnt (rest : List EventWord) : (s.advance rest).pwmcnt = s.pwmcnt := rfl
@[simp] theorem advance_history (rest : List EventWord) : (s.advance rest).history = s.history := rfl
@[simp] theorem advance_draws (rest : List EventWord) : (s.advance rest).draws = s.draws := rfl
@[simp] theorem advance_trace (rest : List EventWord) : (s.advance rest).trace = rest := rfl
@[simp] theorem advance_line (rest : List EventWord) : (s.advance rest).line = s.line + 1 := rfl

@[simp] theorem requestConversion_adres : (s.requestConversion).adres = s.adres := rfl
@[simp] theorem requestConversion_dirOut : (s.requestConversion).dirOut = s.dirOut := rfl
@[simp] theorem requestConversion_duty : (s.requestConversion).duty = s.duty := rfl
@[simp] theorem requestConversion_phase : (s.requestConversion).phase = s.phase := rfl
@[simp] theorem requestConversion_tmrIf : (s.requestConversion).tmrIf = s.tmrIf := rfl
@[simp] theorem requestConversion_adcIf : (s.requestConversion).adcIf = s.adcIf := rfl
@[simp] theorem requestConversion_tmrIe : (s.requestConversion).tmrIe = s.tmrIe := rfl
@[simp] theorem requestConversion_adcIe : (s.requestConversion).adcIe = s.adcIe := rfl
@[simp] theorem requestConversion_convBusy : (s.requestConversion).convBusy = true := rfl
@[simp] theorem requestConversion_pwmcnt : (s.requestConversion).pwmcnt = s.pwmcnt := rfl
@[simp] theorem requestConversion_history : (s.requestConversion).history = s.history ++ [.adcStart] := rfl
@[simp] theorem requestConversion_draws : (s.requestConversion).draws = s.draws := rfl
@[simp] theorem requestConversion_trace : (s.requestConversion).trace = s.trace := rfl
@[simp] theorem requestConversion_line : (s.requestConversion).line = s.line := rfl

/-! Replacing one register by name leaves the fields that are no registers alone. -/

@[simp] theorem put_history (r : Reg) (n : Nat) : (r.put n s).history = s.history := by cases r <;> rfl
@[simp] theorem put_draws (r : Reg) (n : Nat) : (r.put n s).draws = s.draws := by cases r <;> rfl
@[simp] theorem put_trace (r : Reg) (n : Nat) : (r.put n s).trace = s.trace := by cases r <;> rfl
@[simp] theorem put_line (r : Reg) (n : Nat) : (r.put n s).line = s.line := by cases r <;> rfl

end State
end Sys2Proof.Machine
end

