-- ==== Sys2Proof/Laws/Ops.lean ====
section
/-! SUPPORT. What each shared operation can do, said once: outcomes, guards, APPLY, the two services, the arbiter, and the inversion of
`execWith` that every invariant is derived from. -/
namespace Sys2Proof.Machine
variable {P : Params} {i : Instr} {s t : State} {o : Result}

/-! ### Outcomes -/

@[simp] theorem onNext_of_next (f : State → Result) : onNext (.next s) f = f s := rfl
@[simp] theorem onNext_of_refused (r : Refusal) (f : State → Result) : onNext (.refused r) f = .refused r := rfl
@[simp] theorem mapNext_of_next (f : State → State) : mapNext f (.next s) = .next (f s) := rfl
@[simp] theorem mapNext_of_refused (r : Refusal) (f : State → State) : mapNext f (.refused r) = .refused r := rfl

/-- A step that goes on from an outcome has a next state exactly when the outcome has one and the continuation too. -/
theorem onNext_eq_next {f : State → Result} : onNext o f = .next t ↔ ∃ u, o = .next u ∧ f u = .next t := by
  cases o <;> simp [onNext]

/-- A changed outcome is a next state exactly when the outcome is one. -/
theorem mapNext_eq_next {f : State → State} : mapNext f o = .next t ↔ ∃ u, o = .next u ∧ f u = t := by
  cases o <;> simp [mapNext, onNext]

/-- A guarded effect has a next state exactly when no conjunct of the guard is false and the effect has one. -/
theorem guarded_eq_next {b : Option FalseGuard} : guarded b s o = .next t ↔ b = none ∧ o = .next t := by
  cases b <;> simp [guarded]

/-! ### Guards -/

theorem timerServiceable_iff : timerServiceable P s = true ↔
    s.tmrIf = true ∧ s.tmrIe = true ∧ (P.policy = .defer → s.phase = .idle) := by
  unfold timerServiceable
  cases P.policy <;> cases s.phase <;> simp

theorem adcServiceable_iff : adcServiceable s = true ↔ s.adcIf = true ∧ s.adcIe = true := by
  simp [adcServiceable]

/-- SVCT is not blocked exactly when its source is serviceable and the arbiter may choose it. -/
theorem svctBlocked_eq_none : svctBlocked P s = none ↔
    timerServiceable P s = true ∧ ¬ (P.order = .adcFirst ∧ adcServiceable s = true) := by
  rw [timerServiceable_iff]
  unfold svctBlocked
  cases s.tmrIf <;> cases s.tmrIe <;> cases P.policy <;> cases s.phase <;> simp

/-- SVCA is not blocked exactly when its source is serviceable and the arbiter may choose it. -/
theorem svcaBlocked_eq_none : svcaBlocked P s = none ↔
    adcServiceable s = true ∧ ¬ (P.order = .timerFirst ∧ timerServiceable P s = true) := by
  rw [adcServiceable_iff]
  unfold svcaBlocked
  cases s.adcIf <;> cases s.adcIe <;> simp

/-! ### APPLY and the services -/

/-- The mapper only produces pairs inside APPLY's contract. -/
theorem applyLegal_map : ∀ v : Sample, applyLegal (map v).1 (map v).2 = true := by decide

/-- The state after the conversion-complete service. -/
def servedAdc (s : State) : State :=
  (((s.setAdcIf false).setOutputs (map s.adres).1 (map s.adres).2).emit (.apply (map s.adres).1 (map s.adres).2)).setPhase .idle

/-- The conversion-complete service always completes. -/
theorem serviceAdc_eq : serviceAdc s = .next (servedAdc s) := by
  unfold serviceAdc applyPair
  rw [if_pos (applyLegal_map s.adres)]
  rfl

theorem serviceTimer_idle (h : s.phase = .idle) :
    serviceTimer P s = (s.setTmrIf false).requestConversion.setPhase .converting := by
  simp [serviceTimer, h]

theorem serviceTimer_drop (h : s.phase = .converting) (hp : P.policy = .drop) :
    serviceTimer P s = s.setTmrIf false := by
  simp [serviceTimer, h, hp]

theorem serviceTimer_restart (h : s.phase = .converting) (hp : P.policy = .restart) :
    serviceTimer P s = (s.setTmrIf false).requestConversion := by
  simp [serviceTimer, h, hp]

/-- What the period-elapsed service can do where its source is serviceable. -/
theorem serviceTimer_cases (h : timerServiceable P s = true) :
    ((s.phase = .idle) ∧ serviceTimer P s = (s.setTmrIf false).requestConversion.setPhase .converting) ∨
    (s.phase = .converting ∧ P.policy = .drop ∧ serviceTimer P s = s.setTmrIf false) ∨
    (s.phase = .converting ∧ P.policy = .restart ∧ serviceTimer P s = (s.setTmrIf false).requestConversion) := by
  rw [timerServiceable_iff] at h
  rcases hs : s.phase with _ | _
  · exact .inl ⟨rfl, serviceTimer_idle hs⟩
  · rcases hp : P.policy with _ | _ | _
    · exact .inr (.inl ⟨rfl, rfl, serviceTimer_drop hs hp⟩)
    · simp_all
    · exact .inr (.inr ⟨rfl, rfl, serviceTimer_restart hs hp⟩)

theorem svctWith_eq_next : svctWith P s = .next t ↔
    (timerServiceable P s = true ∧ ¬ (P.order = .adcFirst ∧ adcServiceable s = true)) ∧ t = serviceTimer P s := by
  unfold svctWith
  rw [guarded_eq_next, svctBlocked_eq_none]
  simp only [takeService, Host.Outcome.next.injEq]
  exact and_congr_right fun _ => eq_comm

theorem svcaWith_eq_next : svcaWith P s = .next t ↔
    (adcServiceable s = true ∧ ¬ (P.order = .timerFirst ∧ timerServiceable P s = true)) ∧ t = servedAdc s := by
  unfold svcaWith
  rw [guarded_eq_next, svcaBlocked_eq_none]
  simp only [takeService, serviceAdc_eq, Host.Outcome.next.injEq]
  exact and_congr_right fun _ => eq_comm

/-- The arbiter only chooses a serviceable source. -/
theorem serviceable_of_chosen {pick k : Service} (h : chosen P pick s = some k) :
    (k = .timer → timerServiceable P s = true) ∧ (k = .adc → adcServiceable s = true) := by
  unfold chosen at h
  split at h <;> cases k <;> simp_all

theorem svcWith_eq_next {pick : Service} : svcWith P pick s = .next t ↔
    (chosen P pick s = some .timer ∧ t = countDraw (choiceIsOpen P s) (serviceTimer P s)) ∨
    (chosen P pick s = some .adc ∧ t = countDraw (choiceIsOpen P s) (servedAdc s)) := by
  unfold svcWith
  cases h : chosen P pick s with
  | none => simp
  | some k => cases k <;> simp [takeService, serviceAdc_eq, eq_comm]

/-! ### The inversion of execWith -/

/-- What one operation can do, guards included. -/
inductive Move (P : Params) (i : Instr) (s t : State) : Prop where
  | idle (hi : i = .idle) (ht : t = s)
  | tick (hi : i = .tick) (ht : t = s.setTmrIf true)
  | done (v : Sample) (hi : i = .done v) (hb : s.convBusy = true)
      (ht : t = ((s.setAdres v).setAdcIf true).setConvBusy false)
  | timer (hi : serviceOf P i s = some .timer) (hs : timerServiceable P s = true) (c : Bool)
      (ht : t = countDraw c (serviceTimer P s))
  | adc (hi : serviceOf P i s = some .adc) (hs : adcServiceable s = true) (c : Bool)
      (ht : t = countDraw c (servedAdc s))
  | arm (hi : i = .arm) (ht : t = s.setEnables true)
  | pwmck (hi : i = .pwmck) (ht : t = s.setPwmcnt ((s.pwmcnt + 1) % P.pwmPeriod))
  | reset (hi : i = .reset) (ht : execReset s = .next t)

theorem move_of_execWith (h : execWith P i s = .next t) : Move P i s t := by
  cases i with
  | idle => exact .idle rfl (by simpa [execWith, execIdle, eq_comm] using h)
  | tick => exact .tick rfl (by simpa [execWith, execTick, eq_comm] using h)
  | done v =>
    simp only [execWith, execDone, guarded_eq_next] at h
    refine .done v rfl ?_ (by simpa [eq_comm] using h.2)
    by_contra hb
    simp [doneBlocked, hb] at h
  | svct =>
    obtain ⟨⟨hs, -⟩, ht⟩ := svctWith_eq_next.mp h
    exact .timer rfl hs false ht
  | svca =>
    obtain ⟨⟨hs, -⟩, ht⟩ := svcaWith_eq_next.mp h
    exact .adc rfl hs false ht
  | svc =>
    obtain ⟨hk, ht⟩ | ⟨hk, ht⟩ := svcWith_eq_next.mp h
    · exact .timer hk ((serviceable_of_chosen hk).1 rfl) _ ht
    · exact .adc hk ((serviceable_of_chosen hk).2 rfl) _ ht
  | arm => exact .arm rfl (by simpa [execWith, execArm, eq_comm] using h)
  | pwmck => exact .pwmck rfl (by simpa [execWith, pwmckWith, eq_comm] using h)
  | reset => exact .reset rfl h

end Sys2Proof.Machine
end

