-- ==== Sys2Proof/Laws/PerInstr.lean ====
section
/-! SUPPORT. Per-operation facts about the syntax: the encoder's word lies in the operation's own row of the opcode map
(spec/30_encoding.md R45), whose constants are typed out from the spec's table and not from the encoder. -/
namespace Sys2Proof.Laws.WordLiesInRow

/-- The encoded word matches the row of the operation it encodes (R45). -/
def Statement (i : Instr) : Prop := i.row.hits (encode i) = true

theorem idle : Statement .idle := rfl
theorem tick : Statement .tick := rfl
theorem done : ∀ v : Sample, Statement (.done v) := by unfold Statement; decide
theorem svct : Statement .svct := rfl
theorem svca : Statement .svca := rfl
theorem svc : Statement .svc := rfl
theorem arm : Statement .arm := rfl
theorem pwmck : Statement .pwmck := rfl
theorem reset : Statement .reset := rfl

end Sys2Proof.Laws.WordLiesInRow
end

