-- ==== Sys2Proof/Tests/Slice0.lean ====
section
/-! SUPPORT. The model's own tests. Expected results are the vectors and programs of spec/95_test_vectors.md (named V…, W…, P…, S… there)
or words written out from spec/30_encoding.md R44, R45; the `witness_…` theorems show states that meet the hypotheses of the
statements of Certificates/Slice0/Obligations.lean. -/
namespace Sys2Proof.Tests
open Sys2Proof Sys2Proof.Machine

/-- A state in the notation of spec/95_test_vectors.md section 2: `(PHASE, TMR_IF, ADC_IF, CONV_BUSY | ADRES, DIR_OUT, DUTY) IE=xx`. -/
def mk (ph : Phase) (tmrIf adcIf convBusy : Bool) (adres : Sample) (d : DirField) (m : Duty) (ie : Bool) : State :=
  { State.reset with phase := ph, tmrIf := tmrIf, adcIf := adcIf, convBusy := convBusy, adres := adres, dirOut := d,
                     duty := m, tmrIe := ie, adcIe := ie }

/-- The parameters of spec/95_test_vectors.md with PWM_PERIOD = 256 and the given policy and order. -/
def par (p : RetriggerPolicy) (o : ArbOrder) : Params := ⟨p, o, 1, 256⟩

/-! ### Decoding: words written out bit by bit, `op` then `arg` (R44, R45) -/

theorem test_decode_idle : decode 0b000000000000 = .operation .idle ∧ decode 0b000000000001 = .invalid .nonZeroArg := by decide
theorem test_decode_tick : decode 0b000100000000 = .operation .tick ∧ decode 0b000111111111 = .invalid .nonZeroArg := by decide
theorem test_decode_done : decode 0b001001111111 = .operation (.done 127) ∧ decode 0b001010000000 = .operation (.done 128) := by
  decide
theorem test_decode_svct : decode 0b001100000000 = .operation .svct ∧ decode 0x301 = .invalid .nonZeroArg := by decide
theorem test_decode_svca : decode 0b010000000000 = .operation .svca ∧ decode 0x480 = .invalid .nonZeroArg := by decide
theorem test_decode_svc : decode 0b010100000000 = .operation .svc ∧ decode 0x510 = .invalid .nonZeroArg := by decide
theorem test_decode_arm : decode 0b011000000000 = .operation .arm ∧ decode 0x6FF = .invalid .nonZeroArg := by decide
theorem test_decode_pwmck : decode 0b011100000000 = .operation .pwmck ∧ decode 0x701 = .invalid .nonZeroArg := by decide
theorem test_decode_reset : decode 0b111100000000 = .operation .reset ∧ decode 0xFFF = .invalid .nonZeroArg := by decide
theorem test_decode_reserved : decode 0x800 = .invalid .reservedOp ∧ decode 0xEFF = .invalid .reservedOp := by decide
theorem test_decode_table_word : decodeTableWord 16 0x2FF = some (.done 255) ∧ decodeTableWord 12 0x2FF = some (.done 255) ∧
    decodeTableWord 16 0x12FF = none := by decide

/-! ### Well-formedness: each check refuses an ill-formed term -/

theorem test_wf_every_operation (i : Instr) : i.wf = true := by
  cases i with
  | done v => exact decide_eq_true (by omega)
  | _ => rfl
theorem test_wf_refuses_operand_256 : operandInRange 256 = false ∧ TraceLine.wf (.done 256) = false ∧
    TraceLine.wf (.sample 256) = false ∧ TraceLine.wf (.sample 255) = true := by decide
theorem test_wf_refuses_zero_period : Params.wf ⟨.drop, .either, 1, 0⟩ = false ∧ Params.wf ⟨.drop, .either, 0, 1⟩ = false ∧
    Params.wf ⟨.drop, .either, 1, 1⟩ = true := by decide
theorem test_apply_refuses_illegal_pairs : applyLegal 0b00 0 = false ∧ applyLegal 0b11 0 = false ∧ applyLegal 0b01 255 = false ∧
    applyLegal 0b01 3 = false ∧ applyLegal 0b01 254 = true := by decide

/-! ### The mapper: S1 to S5, and rows 100 and 200 of section 3 -/

theorem test_map_scenarios : map 0x00 = (0b10, 0xFE) ∧ map 0x7F = (0b10, 0x00) ∧ map 0x80 = (0b01, 0x00) ∧
    map 0xFF = (0b01, 0xFE) ∧ magnitude 0x7E = 0x02 ∧ magnitude 0x81 = 0x02 := by decide
theorem test_map_inner_rows : map 100 = (0b10, 54) ∧ map 200 = (0b01, 144) := by decide

/-! ### One step each, from the single-operation vectors -/

/-- V32 -/
theorem test_idle : nextOf (exec .idle (mk .converting true true false 0x64 0b01 0x02 true)) =
    some (mk .converting true true false 0x64 0b01 0x02 true) := by decide
/-- V3 -/
theorem test_tick_while_converting : nextOf (exec .tick (mk .converting false false true 0x10 0b10 0xDE true)) =
    some (mk .converting true false true 0x10 0b10 0xDE true) := by decide
/-- V4 -/
theorem test_tick_before_arm : nextOf (exec .tick (mk .idle false false false 0 0b00 0x00 false)) =
    some (mk .idle true false false 0 0b00 0x00 false) := by decide
/-- V5 -/
theorem test_done : nextOf (exec (.done 0x7F) (mk .converting false false true 0 0b00 0x00 true)) =
    some (mk .converting false true false 0x7F 0b00 0x00 true) := by decide
/-- V6 -/
theorem test_done_refused : refusalOf (exec (.done 0x05) (mk .idle false false false 0 0b00 0x00 true)) =
    some (.notEnabled 1 .convBusyClear) := by decide
/-- V8 -/
theorem test_svct_idle : nextOf (exec .svct (mk .idle true false false 0 0b00 0x00 true)) =
    some { mk .converting false false true 0 0b00 0x00 true with history := [.adcStart] } := by decide
/-- V14: under Drop a period is dropped too when the sample waits for its service. -/
theorem test_svct_drops : nextOf (exec .svct (mk .converting true true false 0x00 0b00 0x00 true)) =
    some (mk .converting false true false 0x00 0b00 0x00 true) := by decide
/-- V18 -/
theorem test_svca_reverses : nextOf (exec .svca (mk .converting false true false 0xFF 0b10 0xFE true)) =
    some { mk .idle false false false 0xFF 0b01 0xFE true with history := [.apply 0b01 254] } := by decide
/-- V19 -/
theorem test_svca_keeps_tmrIf : nextOf (exec .svca (mk .converting true true false 0x64 0b01 0x02 true)) =
    some { mk .idle true false false 0x64 0b10 0x36 true with history := [.apply 0b10 54] } := by decide
/-- V29 -/
theorem test_svc_refused : refusalOf (exec .svc (mk .idle false false false 0 0b00 0x00 true)) =
    some (.notEnabled 1 .nothingServiceable) := by decide
/-- V25: both choices are steps; the draw is the model's own counter. -/
theorem test_svc_both_choices :
    nextOf (svcWith (par .drop .either) .timer (mk .converting true true false 0x00 0b00 0x00 true)) =
      some { mk .converting false true false 0x00 0b00 0x00 true with draws := 1 } ∧
    nextOf (svcWith (par .drop .either) .adc (mk .converting true true false 0x00 0b00 0x00 true)) =
      some { mk .idle true false false 0x00 0b10 0xFE true with history := [.apply 0b10 254], draws := 1 } := by decide
/-- V33 -/
theorem test_arm : nextOf (exec .arm (mk .idle true false false 0 0b00 0x00 false)) =
    some (mk .idle true false false 0 0b00 0x00 true) := by decide
/-- W9 -/
theorem test_pwmck_wraps :
    (nextOf (pwmckWith (par .drop .either) { State.reset with pwmcnt := 255 })).map (·.pwmcnt) = some 0 := by decide
/-- W6: one period of 4 counts at DUTY 2. -/
theorem test_pwm_wave : pwmWave ⟨.drop, .either, 1, 4⟩ 4 { State.reset with duty := 2 } = [true, true, false, false] := by decide
/-- V35: every register but the unspecified ADRES; the history is kept; the draw is the model's own counter. -/
theorem test_reset :
    (nextOf (exec .reset { mk .converting true true false 0x7F 0b10 0x04 true with pwmcnt := 9, history := [.adcStart] })).map
      (fun t => { t with adres := 0 }) = some { State.reset with history := [.adcStart], draws := 1 } := by decide

/-! ### Steps, traces and their text -/

theorem test_step_takes_next_word :
    nextOf (step { mk .converting false false true 0 0b00 0x00 true with trace := [0x27F, 0x400] }) =
      some { mk .converting false true false 0x7F 0b00 0x00 true with trace := [0x400], line := 2 } := by decide
theorem test_step_refuses_invalid_word : refusalOf (step { State.reset with trace := [0x601], line := 2 }) =
    some (.invalidWord 2 0x601 .nonZeroArg) := by decide
theorem test_step_refuses_end_of_trace : refusalOf (step State.reset) = some (.traceEnded 1) := by decide
theorem test_fetch_word : nextOf (step (State.reset.withFetchWord 16 0x100)) =
    some { State.reset with tmrIf := true, line := 2 } := by decide
/-- P8: a trace with an invalid word is refused as a whole, at its line. -/
theorem test_trace_refused_as_a_whole : refusalOf (runTrace [0x100, 0x800] State.reset) = some (.invalidWord 2 0x800 .reservedOp) := by
  decide
/-- P3, text and words of the common prefix; hexadecimal operands; a comment; a blank line. -/
theorem test_assemble : assemble "BOOT ; TICK\nTICK\n\nSVCT\nDONE  0x00\nTICK" = some [0xF00, 0x600, 0x100, 0x300, 0x200, 0x100] := by
  decide
theorem test_assemble_refuses : assemble "DONE 0x100" = none ∧ assemble "DONE 0x" = none ∧ assemble "Tick" = none ∧
    assemble "SVCA 0" = none ∧ assemble "SAMPLE 1 2" = none := by decide

/-! ### Witnesses: the hypotheses of the statements can be met -/

theorem witness_DecodeEncodeAgree : decode 0x2FF = .operation (.done 255) := by decide
theorem witness_InvalidWordsAreRefused :
    ({ State.reset with trace := [0xFFF] } : State).trace = 0xFFF :: [] ∧ decode 0xFFF = .invalid .nonZeroArg ∧
    (0xFFF : EventWord) ∈ [0xF00, 0xFFF] := by decide
theorem witness_StepRunsDecodedOperation :
    ({ State.reset with trace := [0x100] } : State).trace = 0x100 :: [] ∧ decode 0x100 = .operation .tick ∧
    nextOf (exec .tick { State.reset with trace := [0x100] }) = some { State.reset with trace := [0x100], tmrIf := true } ∧
    decode 0x300 = .operation .svct ∧ refusalOf (exec .svct { State.reset with trace := [0x300] }) = some (.notEnabled 1 .tmrIfClear) := by
  decide
theorem witness_FetchedWordIsRun :
    (nextOf (exec .arm (State.reset.withFetchWord 16 (encode .arm).toNat))).isSome = true := by decide
theorem witness_TickSetsPendingFlag : (mk .idle true false false 0 0 0 true).tmrIf = true := by decide
theorem witness_DoneLatchesSample :
    (mk .converting false false true 0 0 0 true).convBusy = true ∧ (mk .idle false false false 0 0 0 true).convBusy = false := by
  decide
/-- All three clauses: V8, V9, V10. -/
theorem witness_SvctInIdleStartsConversion :
    (let s := mk .idle true false false 0 0 0 true; s.tmrIf = true ∧ s.tmrIe = true ∧ s.phase = .idle) ∧
    (mk .idle false false false 0 0 0 true).tmrIf = false ∧
    (let s := mk .idle true false false 0 0 0 false; s.tmrIf = true ∧ s.tmrIe = false) := by decide
/-- V11, V12, V13: the state meets the hypotheses under each policy. -/
theorem witness_SvctInConvertingFollowsPolicy :
    let s := mk .converting true false true 0 0 0 true
    s.tmrIf = true ∧ s.tmrIe = true ∧ s.phase = .converting ∧
    ¬ ((par .drop .either).order = .adcFirst ∧ adcServiceable s = true) ∧ (par .drop .either).policy = .drop ∧
    ¬ ((par .defer .adcFirst).order = .adcFirst ∧ adcServiceable s = true) ∧ (par .defer .adcFirst).policy = .defer ∧
    ¬ ((par .restart .timerFirst).order = .adcFirst ∧ adcServiceable s = true) ∧
    (par .restart .timerFirst).policy = .restart := by decide
theorem witness_SvcaAppliesMappedSample :
    (let s := mk .converting false true false 0x7F 0 0 true; s.adcIf = true ∧ s.adcIe = true) ∧
    (mk .converting false false true 0 0 0 true).adcIf = false ∧
    (let s := mk .converting false true false 0x7F 0 0 false; s.adcIf = true ∧ s.adcIe = false) := by decide
/-- One source, the other, both under each order, none. -/
theorem witness_SvcTakesExactlyOneService :
    (let s := mk .idle true false false 0 0 0 true; timerServiceable (par .drop .either) s = true ∧ adcServiceable s = false) ∧
    (let s := mk .converting false true false 0 0 0 true; timerServiceable (par .drop .either) s = false ∧ adcServiceable s = true) ∧
    (let s := mk .converting true true false 0 0 0 true
     timerServiceable (par .drop .timerFirst) s = true ∧ timerServiceable (par .drop .adcFirst) s = true ∧
     timerServiceable (par .drop .either) s = true ∧ adcServiceable s = true ∧
     chosen (par .drop .either) .timer s = some .timer ∧ chosen (par .drop .either) .adc s = some .adc) ∧
    (let s := mk .idle false false false 0 0 0 true; timerServiceable (par .drop .either) s = false ∧ adcServiceable s = false) := by
  decide
theorem witness_SvcCompletesWhenServiceable :
    (let s := mk .idle true false false 0 0 0 true; s.tmrIf = true ∧ s.tmrIe = true ∧ adcServiceable s = false) ∧
    (let s := mk .converting false true false 0 0 0 true
     s.adcIf = true ∧ s.adcIe = true ∧ timerServiceable Config.params s = false) ∧
    (let s := mk .converting true true false 0 0 0 true
     s.tmrIf = true ∧ s.tmrIe = true ∧ s.adcIf = true ∧ s.adcIe = true) := by decide
theorem witness_ArmEnablesBothSources :
    let s := mk .idle true false false 0 0 0 true; s.tmrIe = true ∧ s.adcIe = true ∧ s.tmrIf = true := by decide
theorem witness_enables_together :
    EnabledTogether (mk .idle true false false 0 0 0 true) ∧
    (nextOf (execWith (par .restart .either) .arm (mk .idle true false false 0 0 0 false))).isSome = true := ⟨rfl, by decide⟩
theorem witness_PwmckCountsModuloPeriod : (⟨.drop, .either, 1, 1⟩ : Params).pwmPeriod = 1 := rfl
/-- Every operation is enabled somewhere, and the four guarded ones are not enabled somewhere. -/
theorem witness_GuardsDecideEnabled :
    Enabled (par .drop .either) (.done 0) (mk .converting false false true 0 0 0 true) ∧
    Enabled (par .drop .either) .svct (mk .idle true false false 0 0 0 true) ∧
    Enabled (par .drop .either) .svca (mk .converting false true false 0 0 0 true) ∧
    Enabled (par .drop .either) .svc (mk .idle true false false 0 0 0 true) ∧
    ¬ Enabled (par .drop .either) (.done 0) (mk .idle false false false 0 0 0 true) ∧
    ¬ Enabled (par .defer .either) .svct (mk .converting true false true 0 0 0 true) ∧
    ¬ Enabled (par .drop .timerFirst) .svca (mk .converting true true false 0 0 0 true) ∧
    ¬ Enabled (par .drop .either) .svc (mk .idle false false false 0 0 0 true) := by
  simp [Enabled, mk, par, timerServiceable, adcServiceable, State.reset]
/-- GuardsDecideEnabled: a line in the middle of a run that is not enabled. -/
theorem witness_refused_line :
    ¬ Enabled (par .drop .either) (.done 0) { mk .idle true false false 0 0 0 true with line := 2 } ∧
    nextOf (runOps (par .drop .either) [.tick] (mk .idle false false false 0 0 0 true)) =
      some { mk .idle true false false 0 0 0 true with line := 2 } := by
  refine ⟨by simp [Enabled, mk], by decide⟩
/-- A register outside the entries of each operation. -/
theorem witness_RegisterAccessTableHolds :
    Reg.adres ∉ mayRead .idle ∧ Reg.tmrIf ∉ mayRead .tick ∧ Reg.adres ∉ mayRead (.done 0) ∧ Reg.convBusy ∉ mayRead .svct ∧
    Reg.phase ∉ mayRead .svca ∧ Reg.convBusy ∉ mayRead .svc ∧ Reg.tmrIe ∉ mayRead .arm ∧ Reg.duty ∉ mayRead .pwmck ∧
    Reg.adres ∉ mayRead .reset ∧
    (nextOf (execWith (par .restart .either) .svct (mk .converting true false true 0 0 0 true))).isSome = true := by decide
/-- For the statements about one step and what service it takes: a step without a service, and one with each. -/
theorem witness_steps_by_service :
    (nextOf (execWith (par .drop .either) .tick (mk .idle false false false 0 0b10 4 true))).isSome = true ∧
    serviceOf (par .drop .either) .tick (mk .idle false false false 0 0b10 4 true) = none ∧
    (nextOf (execWith (par .drop .either) .svct (mk .idle true false false 0 0 0 true))).isSome = true ∧
    (nextOf (execWith (par .drop .either) .svct (mk .converting true false true 0 0 0 true))).isSome = true ∧
    serviceOf (par .drop .either) .svct (mk .idle true false false 0 0 0 true) = some .timer ∧
    (nextOf (execWith (par .drop .either) .svca (mk .converting false true false 9 0 0 true))).isSome = true ∧
    serviceOf (par .drop .either) .svca (mk .converting false true false 9 0 0 true) = some .adc := by decide
/-- OutputsHoldBetweenApplies: a step that is no RESET and takes no conversion-complete service. -/
theorem witness_OutputsHoldBetweenApplies :
    (nextOf (execWith (par .drop .either) .svct (mk .converting true false true 0 0b01 8 true))).isSome = true ∧
    Instr.svct ≠ .reset ∧ serviceOf (par .drop .either) .svct (mk .converting true false true 0 0b01 8 true) ≠ some .adc := by decide
/-- FlagsSetByEventsClearedByServices: each flag set by its event and cleared by its service and by RESET. -/
theorem witness_FlagsSetByEventsClearedByServices :
    (nextOf (exec .tick (mk .idle false false false 0 0 0 true))).map (·.tmrIf) = some true ∧
    (nextOf (exec .svct (mk .idle true false false 0 0 0 true))).map (·.tmrIf) = some false ∧
    (nextOf (exec (.done 1) (mk .converting false false true 0 0 0 true))).map (·.adcIf) = some true ∧
    (nextOf (exec .svca (mk .converting false true false 0 0 0 true))).map (·.adcIf) = some false ∧
    (nextOf (exec .reset (mk .converting true true false 0 0 0 true))).map (fun t => (t.tmrIf, t.adcIf)) = some (false, false) := by
  decide
theorem witness_PhaseFollowsTransitionTable :
    (mk .converting true false true 0 0 0 true).phase = .converting ∧ (par .defer .either).policy = .defer ∧
    (nextOf (execWith (par .restart .either) .svct (mk .converting true false true 0 0 0 true))).map
      (adcStartPulse (mk .converting true false true 0 0 0 true)) = some true := by decide
theorem witness_ConversionInFlightFollowsContract :
    (nextOf (exec .svct (mk .idle true false false 0 0 0 true))).map (·.convBusy) = some true ∧
    (nextOf (exec (.done 1) (mk .converting false false true 0 0 0 true))).map (·.convBusy) = some false := by decide
theorem witness_AgentsWriteOnlyTheirRegisters :
    agentOf .idle = .background ∧ agentOf .tick = .timer ∧ agentOf (.done 0) = .converter ∧ agentOf .arm = .configurator ∧
    agentOf .pwmck = .pwmTimebase ∧ agentOf .svc = .handler ∧ agentOf .reset = .resetSource := by decide
/-- The three ranges of the mapper at their ends. -/
theorem witness_MapperFollowsFormulas : (126 : Sample).toNat < 127 ∧ (129 : Sample).toNat > 128 ∧ (127 : Sample).toNat = 127 ∧
    (128 : Sample).toNat = 128 ∧ (127 : Sample).toNat ≤ 127 ∧ (128 : Sample).toNat > 127 := by decide
theorem witness_MapperHasEightBitForms : (128 : Sample).getLsbD 7 = true ∧ (127 : Sample).getLsbD 7 = false ∧
    (127 : Sample).toNat ≤ 127 ∧ (128 : Sample).toNat ≥ 128 := by decide
theorem witness_LegalPairsAreMappedOnce : applyLegal 0b10 254 = true ∧ applyLegal 0b01 0 = true := by decide
/-- The legal range at both ends; each kind of illegal argument; no pair falls under both clauses. -/
theorem witness_apply_arguments : (0b01 : DirField) = 0b01 ∧ (0 : Duty).toNat % 2 = 0 ∧ (254 : Duty).toNat % 2 = 0 ∧
    (254 : Duty).toNat ≤ 254 ∧ (253 : Duty).toNat % 2 = 1 ∧ (255 : Duty) = 255 ∧
    (mk .idle false false false 0 0b10 254 true).dirOut = 0b10 ∧ (mk .idle false false false 0 0b10 254 true).duty = 254 := by decide

/-! Witnesses for the invariants and the runs. -/

theorem witness_StepKeepsInvariant :
    Inv Config.params { mk .converting true false true 0 0b10 0xFE true with trace := [0x27F] } ∧
    (nextOf (step { mk .converting true false true 0 0b10 0xFE true with trace := [0x27F] })).isSome = true := by
  refine ⟨⟨.inr ⟨0, by decide⟩, ⟨by simp [mk], by simp [mk]⟩, rfl, ?_⟩, by decide⟩
  show 0 < Config.pwmPeriodPred + 1
  omega
theorem witness_OutputsStayLegalUnderEveryPolicy :
    OutputsLegal (mk .converting false true false 9 0b00 0x00 true) ∧ OutputsLegal (mk .idle false false false 0 0b10 0xFE true) ∧
    (nextOf (execWith (par .restart .adcFirst) .svca (mk .converting false true false 9 0b00 0x00 true))).isSome = true :=
  ⟨.inl ⟨rfl, rfl⟩, .inr ⟨0, by decide⟩, by decide⟩
/-- A run from a RESET with two services, by `SAMPLE 9 ; SAMPLE 200`, and one with none; also for UnspecifiedAdresNeverObserved,
AppliedPairsAreMappedSamples and StartsAndAppliesAlternate. -/
theorem witness_runs_from_reset :
    let ops := Instr.arm :: (TraceLine.expand (.sample 9) ++ TraceLine.expand (.sample 200))
    (nextOf (onNext (execWith (par .drop .either) .reset State.reset) (runOps (par .drop .either) ops))).map
      (fun t => (t.dirOut, t.duty, t.adcIf)) = some (0b01, 144, false) ∧
    Instr.reset ∉ ops ∧ (par .drop .either).policy ≠ .restart ∧
    (nextOf (execWith (par .drop .either) .reset State.reset)).map (servedSamples (par .drop .either) ops) = some [9, 200] ∧
    (nextOf (execWith (par .drop .either) .reset State.reset)).map (servedSamples (par .drop .either) [.arm]) = some [] := by decide
/-- UnspecifiedAdresNeverObserved: a run that is refused (P8). -/
theorem witness_refused_run :
    refusalOf (onNext (execWith (par .drop .either) .reset State.reset) (runOps (par .drop .either) [.arm, .done 5])) =
      some (.notEnabled 2 .convBusyClear) := by decide
/-- AppliedPairsAreMappedSamples: a run in which no RESET discards a sample. -/
theorem witness_NoneDiscarded : NoneDiscarded (par .drop .either) [.tick, .reset] (mk .idle false false false 0 0 0 true) := by
  simp [NoneDiscarded, execWith, execTick, execReset, mk]
theorem witness_SchedulerStaysCoupled :
    ((par .drop .either).policy ≠ .restart ∧ (par .restart .adcFirst).order = .adcFirst) ∧
    SchedulerCoupled (mk .converting true false true 0 0 0 true) ∧ EnabledTogether (mk .converting true false true 0 0 0 true) ∧
    (nextOf (execWith (par .restart .adcFirst) (.done 3) (mk .converting true false true 0 0 0 true))).isSome = true :=
  ⟨by decide, ⟨by simp [mk], by simp [mk]⟩, rfl, by decide⟩
theorem witness_RestartBreaksCoupling : (par .restart .either).policy = .restart ∧ (par .restart .timerFirst).order ≠ .adcFirst := by
  decide
theorem witness_PseudoOperationsExpand :
    PwmInRange (par .drop .either) { State.reset with pwmcnt := 255 } ∧
    (let s := mk .idle true false false 7 0b01 8 true
     s.tmrIe = true ∧ s.adcIe = true ∧ s.phase = .idle ∧ s.adcIf = false ∧ s.convBusy = false) ∧ 255 ≤ 255 :=
  ⟨by simp [PwmInRange, par], by decide, by decide⟩
theorem witness_BootState : BootState (mk .idle false false false 0 0b00 0x00 true) := ⟨rfl, rfl, rfl, rfl, rfl, rfl⟩
theorem witness_NothingIsServicedBeforeArm : Instr.arm ∉ [Instr.tick, .reset, .idle] ∧
    (nextOf (onNext (execWith (par .drop .either) .reset State.reset) (runOps (par .drop .either) [.tick, .reset, .idle]))).isSome = true := by
  decide
theorem witness_ServiceOrderIsObservable :
    SchedulerCoupled (mk .converting true true false 0 0 0 true) ∧
    timerServiceable Config.params (mk .converting true true false 0 0 0 true) = true ∧
    adcServiceable (mk .converting true true false 0 0 0 true) = true ∧ (par .defer .timerFirst).policy = .defer :=
  ⟨⟨by simp [mk], by simp [mk]⟩, by decide, by decide, rfl⟩
theorem witness_CoalescedPeriodsAreServicedOnce :
    let ops := [Instr.done 5, .svca]
    let a := mk .converting true false true 0 0 0 true
    nextOf (exec .tick (mk .converting false false true 0 0 0 true)) = some a ∧ Instr.reset ∉ ops ∧
    (nextOf (runOps Config.params ops a)).map (fun m => (nextOf (exec .svct m)).isSome) = some true ∧
    TakesNone Config.params .timer ops a := by
  refine ⟨by decide, by decide, by decide, ?_⟩
  simp [TakesNone, serviceOf]
/-- The run condition lets an SVC through that takes the conversion-complete service: here both sources wait, AdcFirst takes that
one, and the period's flag waits on. -/
theorem witness_TakesNone_svc :
    TakesNone (par .drop .adcFirst) .timer [.svc] (mk .converting true true false 9 0 0 true) ∧
    (nextOf (execWith (par .drop .adcFirst) .svc (mk .converting true true false 9 0 0 true))).map (·.tmrIf) = some true :=
  ⟨⟨by decide, fun _ _ => trivial⟩, by decide⟩
theorem witness_QuiescentWaitsForEnvironment :
    Quiescent (par .drop .either) (mk .idle false false false 0 0 0 true) ∧
    (nextOf (execWith (par .drop .either) .idle (mk .idle false false false 0 0 0 true))).isSome = true :=
  ⟨⟨by decide, by decide, rfl⟩, by decide⟩
theorem witness_TimeBaseReturnsAfterOnePeriod : PwmInRange (par .drop .either) { State.reset with pwmcnt := 255 } := by
  simp [PwmInRange, par]
theorem witness_WaveformHighTimeIsDuty : ({ State.reset with duty := 254 } : State).pwmcnt = 0 := rfl
/-- DutyChangeActsAtOnce: W7 (raised, `pwm_out` rises again) and W8 (lowered, cut short). -/
theorem witness_DutyChangeActsAtOnce :
    (let s := { mk .converting false true false 131 0b01 2 true with pwmcnt := 4 }
     serviceOf (par .drop .either) .svca s = some .adc ∧ pwmOut s = false ∧ s.pwmcnt < (magnitude s.adres).toNat ∧
     (nextOf (exec .svca s)).map pwmOut = some true) ∧
    (let s := { mk .converting false true false 129 0b01 6 true with pwmcnt := 3 }
     serviceOf (par .drop .either) .svca s = some .adc ∧ pwmOut s = true ∧ (magnitude s.adres).toNat ≤ s.pwmcnt ∧
     (nextOf (exec .svca s)).map pwmOut = some false) := by decide
theorem witness_RestartCanStarve :
    let s := mk .converting false false true 0 0b10 4 true
    (par .restart .either).policy = .restart ∧ s.tmrIe = true ∧ s.phase = .converting ∧ s.convBusy = true ∧ s.adcIf = false := by
  decide

/-! A fair infinite execution: `TICK ; SVCT ; DONE 0 ; SVCA` for ever, under the decided parameters. -/

/-- The history after `k` whole cycles. -/
def cycleHistory (k : Nat) : List Event := (List.replicate k [.adcStart, .apply 0b10 254]).flatten

theorem cycleHistory_succ (k : Nat) : cycleHistory (k + 1) = cycleHistory k ++ [.adcStart, .apply 0b10 254] := by
  simp [cycleHistory, List.replicate_succ', List.flatten_append]

/-- The operation at position `r` of the cycle. -/
def cycleOp : Nat → Instr
  | 0 => .tick
  | 1 => .svct
  | 2 => .done 0
  | _ => .svca

/-- The state at position `r` of the cycle, after `k` whole cycles. -/
def cycleState (k : Nat) : Nat → State
  | 0 => { mk .idle false false false 0 0b10 254 true with history := cycleHistory k }
  | 1 => { mk .idle true false false 0 0b10 254 true with history := cycleHistory k }
  | 2 => { mk .converting false false true 0 0b10 254 true with history := cycleHistory k ++ [.adcStart] }
  | _ => { mk .converting false true false 0 0b10 254 true with history := cycleHistory k ++ [.adcStart] }

/-- The fair execution. -/
def cycle : Execution (par .drop .either) where
  st n := cycleState (n / 4) (n % 4)
  op n := cycleOp (n % 4)
  follows n := by
    have h : n % 4 = 0 ∨ n % 4 = 1 ∨ n % 4 = 2 ∨ n % 4 = 3 := by omega
    rcases h with h | h | h | h
    · rw [show (n + 1) / 4 = n / 4 by omega, show (n + 1) % 4 = 1 by omega, h]
      rfl
    · rw [show (n + 1) / 4 = n / 4 by omega, show (n + 1) % 4 = 2 by omega, h]
      rfl
    · rw [show (n + 1) / 4 = n / 4 by omega, show (n + 1) % 4 = 3 by omega, h]
      rfl
    · rw [show (n + 1) / 4 = n / 4 + 1 by omega, show (n + 1) % 4 = 0 by omega, h]
      refine svcaWith_eq_next.mpr ⟨⟨rfl, by simp [par]⟩, ?_⟩
      have h4 := cycleHistory_succ (n / 4)
      rw [show [Event.adcStart, .apply 0b10 254] = [.adcStart] ++ [.apply 0b10 254] from rfl, ← List.append_assoc] at h4
      simp only [cycleState, h4]
      rfl

theorem witness_fair_execution :
    (par .drop .either).policy ≠ .restart ∧ cycle.HandlerFair ∧ cycle.ConverterProgress ∧ cycle.TimerProgress ∧
    cycle.NoResetFrom 2 ∧ SchedulerCoupled (cycle.st 2) ∧ (cycle.st 2).tmrIe = true ∧ (cycle.st 2).adcIe = true ∧
    (cycle.st 2).convBusy = true := by
  refine ⟨by decide, ⟨fun n _ => ⟨4 * n + 1, by omega, ?_⟩, fun n _ => ⟨4 * n + 3, by omega, ?_⟩⟩,
    fun n _ => ⟨4 * n + 2, by omega, .inl ⟨0, ?_⟩⟩, fun n => ⟨4 * n, by omega, ?_⟩, fun m _ => ?_,
    ⟨by decide, by decide⟩, rfl, rfl, rfl⟩
  · show serviceOf _ (cycleOp ((4 * n + 1) % 4)) _ = some .timer
    rw [show (4 * n + 1) % 4 = 1 by omega]; rfl
  · show serviceOf _ (cycleOp ((4 * n + 3) % 4)) _ = some .adc
    rw [show (4 * n + 3) % 4 = 3 by omega]; rfl
  · show cycleOp ((4 * n + 2) % 4) = .done 0
    rw [show (4 * n + 2) % 4 = 2 by omega]; rfl
  · show cycleOp (4 * n % 4) = .tick
    rw [show 4 * n % 4 = 0 by omega]; rfl
  · show cycleOp (m % 4) ≠ .reset
    have h : m % 4 = 0 ∨ m % 4 = 1 ∨ m % 4 = 2 ∨ m % 4 = 3 := by omega
    rcases h with h | h | h | h <;> rw [h] <;> exact fun h => nomatch h

end Sys2Proof.Tests
end

