-- ==== Sys2Proof/Proofs/History.lean ====
section
/-! SUPPORT. The event history (spec/10_state.md R22): no operation reads it, so every operation commutes with putting older events
before it; and what each service appends to it. -/
namespace Sys2Proof.Machine
variable {P : Params} {i : Instr} {s t : State} {o : Result} (older : List Event)

/-! ### Older events before the history -/

/-- The state with older events put before its history. -/
def State.prependHistory (older : List Event) (s : State) : State := { s with history := older ++ s.history }

theorem requestConversion_prependHistory :
    (s.prependHistory older).requestConversion = s.requestConversion.prependHistory older := by
  simp [State.prependHistory, State.requestConversion, State.emit, State.setConvBusy]

theorem servedAdc_prependHistory : servedAdc (s.prependHistory older) = (servedAdc s).prependHistory older := by
  simp [State.prependHistory, servedAdc, State.setAdcIf, State.setOutputs, State.emit, State.setPhase]

/-- No phase and no policy makes the period-elapsed service read the history. -/
theorem serviceTimer_prependHistory :
    serviceTimer P (s.prependHistory older) = (serviceTimer P s).prependHistory older := by
  have hphase : (s.prependHistory older).phase = s.phase := rfl
  have hstart := requestConversion_prependHistory (s := s.setTmrIf false) older
  unfold serviceTimer
  rw [hphase]
  cases s.phase with
  | idle => exact congrArg (State.setPhase .converting) hstart
  | converting =>
    cases P.policy with
    | drop => rfl
    | defer => rfl
    | restart => exact hstart

theorem takeService_prependHistory (k : Service) :
    takeService P k (s.prependHistory older) = mapNext (State.prependHistory older) (takeService P k s) := by
  cases k with
  | timer => simp [takeService, serviceTimer_prependHistory]
  | adc => simp [takeService, serviceAdc_eq, servedAdc_prependHistory]

theorem countDraw_prependHistory (c : Bool) :
    countDraw c (s.prependHistory older) = (countDraw c s).prependHistory older := by
  cases c <;> rfl

/-- A refusal names the guard and the line, neither of which depends on the history. -/
theorem guarded_prependHistory (b : Option FalseGuard) :
    guarded b (s.prependHistory older) (mapNext (State.prependHistory older) o) =
      mapNext (State.prependHistory older) (guarded b s o) := by
  cases b <;> rfl

theorem svcWith_prependHistory (pick : Service) :
    svcWith P pick (s.prependHistory older) = mapNext (State.prependHistory older) (svcWith P pick s) := by
  have hchosen : chosen P pick (s.prependHistory older) = chosen P pick s := rfl
  have hopen : choiceIsOpen P (s.prependHistory older) = choiceIsOpen P s := rfl
  unfold svcWith
  rw [hchosen, hopen]
  cases chosen P pick s with
  | none => rfl
  | some k =>
    simp only [takeService_prependHistory]
    cases takeService P k s with
    | next u => exact congrArg _ (countDraw_prependHistory older _)
    | fault r => rfl
    | refused r => rfl

/-- No operation reads the history (R22). -/
theorem execWith_prependHistory :
    execWith P i (s.prependHistory older) = mapNext (State.prependHistory older) (execWith P i s) := by
  cases i with
  | done v =>
    exact guarded_prependHistory (o := .next (((s.setAdres v).setAdcIf true).setConvBusy false)) older (doneBlocked s)
  | svct =>
    simp only [execWith, svctWith, takeService_prependHistory]
    exact guarded_prependHistory older (svctBlocked P s)
  | svca =>
    simp only [execWith, svcaWith, takeService_prependHistory]
    exact guarded_prependHistory older (svcaBlocked P s)
  | svc => exact svcWith_prependHistory older _
  | idle | tick | arm | pwmck | reset => rfl

/-! ### What a step appends -/

@[simp] theorem countDraw_history (c : Bool) : (countDraw c s).history = s.history := by cases c <;> rfl
@[simp] theorem countDraw_dirOut (c : Bool) : (countDraw c s).dirOut = s.dirOut := by cases c <;> rfl
@[simp] theorem countDraw_duty (c : Bool) : (countDraw c s).duty = s.duty := by cases c <;> rfl

/-- An operation that takes no service appends nothing. -/
theorem history_of_no_service (h : execWith P i s = .next t) (hk : serviceOf P i s = none) : t.history = s.history := by
  cases move_of_execWith h with
  | idle _ ht | tick _ ht | done _ _ _ ht | arm _ ht | pwmck _ ht => subst ht; rfl
  | timer hi | adc hi => simp [hk] at hi
  | reset _ ht => cases ht; rfl

/-- The end state of an operation that takes the period-elapsed service. -/
theorem eq_of_takes_timer (h : execWith P i s = .next t) (hk : serviceOf P i s = some .timer) :
    ∃ c, t = countDraw c (serviceTimer P s) := by
  cases move_of_execWith h with
  | timer _ _ c ht => exact ⟨c, ht⟩
  | adc hi => simp [hk] at hi
  | idle hi | tick hi | done _ hi | arm hi | pwmck hi | reset hi => subst hi; cases hk

/-- The end state of an operation that takes the conversion-complete service. -/
theorem eq_of_takes_adc (h : execWith P i s = .next t) (hk : serviceOf P i s = some .adc) :
    ∃ c, t = countDraw c (servedAdc s) := by
  cases move_of_execWith h with
  | adc _ _ c ht => exact ⟨c, ht⟩
  | timer hi => simp [hk] at hi
  | idle hi | tick hi | done _ hi | arm hi | pwmck hi | reset hi => subst hi; cases hk

/-- The period-elapsed service issues a start request from Idle, and under Restart in either phase (R73, R74). -/
theorem serviceTimer_history_of_start (hp : s.phase = .idle ∨ P.policy = .restart) :
    (serviceTimer P s).history = s.history ++ [.adcStart] := by
  cases hs : s.phase with
  | idle => simp [serviceTimer_idle hs]
  | converting => simp [serviceTimer_restart hs (hp.resolve_left (by simp [hs]))]

@[simp] theorem servedAdc_history :
    (servedAdc s).history = s.history ++ [.apply (servedAdc s).dirOut (servedAdc s).duty] := rfl

theorem servedAdc_outputs : ((servedAdc s).dirOut, (servedAdc s).duty) = map s.adres := rfl

end Sys2Proof.Machine

namespace Sys2Proof.Proofs
open Sys2Proof.Machine

/-- Settles O28: every operation commutes with older events put before the history, and the end state of each service says what it
appended. -/
theorem historyRecordsStartsAndApplies : Obligations.HistoryRecordsStartsAndApplies := by
  refine ⟨fun P i s older => execWith_prependHistory older, fun P i s t h => ⟨history_of_no_service h, ?_, ?_, ?_⟩⟩
  · intro hk hp
    obtain ⟨c, rfl⟩ := eq_of_takes_timer h hk
    simpa using serviceTimer_history_of_start hp
  · intro hk hs hp
    obtain ⟨c, rfl⟩ := eq_of_takes_timer h hk
    simp [serviceTimer_drop hs hp]
  · intro hk
    obtain ⟨c, rfl⟩ := eq_of_takes_adc h hk
    exact ⟨by simp, by simpa using servedAdc_outputs⟩

end Sys2Proof.Proofs
end

