-- ==== Sys2Proof/Proofs/Decoder.lean ====
section
/-! SUPPORT. The decoder, said once (spec/30_encoding.md R44 to R47): the two fields of a word, the three kinds of word there are, the
operation a word decodes to, the row it matches, and the invalid words; then the refusal of a trace that holds one. -/
namespace Sys2Proof
open Machine
variable {w : EventWord} {i : Instr}

/-! ### The fields of a word (R44) -/

theorem opField_toNat : (opField w).toNat = w.toNat / 256 := by
  simp only [opField, BitVec.extractLsb'_toNat, Nat.shiftRight_eq_div_pow]
  omega

theorem argField_toNat : (argField w).toNat = w.toNat % 256 := by
  simp [argField, BitVec.extractLsb'_toNat]

/-- A word is its two fields, `op` above `arg`. -/
theorem packWord_fields (w : EventWord) : packWord (opField w) (argField w) = w :=
  BitVec.extractLsb'_append_extractLsb'_eq_extractLsb' rfl |>.trans BitVec.extractLsb'_eq_self

@[simp] theorem opField_packWord (op : BitVec 4) (arg : BitVec 8) : opField (packWord op arg) = op :=
  BitVec.extractLsb'_append_eq_left

@[simp] theorem argField_packWord (op : BitVec 4) (arg : BitVec 8) : argField (packWord op arg) = arg :=
  BitVec.extractLsb'_append_eq_right

/-- DONE's words are the ones with its `op`, and the operand is `arg` as it stands (R46). -/
theorem encode_done_iff {v : Sample} : encode (.done v) = w ↔ opField w = 2 ∧ v = argField w := by
  constructor
  · rintro rfl
    simp [encode]
  · rintro ⟨hop, rfl⟩
    exact (congrArg (packWord · (argField w)) hop.symm).trans (packWord_fields w)

/-! ### What the decoder answers (R45, R47) -/

theorem withoutOperand_eq_operation {j : Instr} : withoutOperand w j = .operation i ↔ argField w = 0 ∧ j = i := by
  unfold withoutOperand
  split <;> simp_all

theorem withoutOperand_invalid_iff {j : Instr} : (∃ why, withoutOperand w j = .invalid why) ↔ w.toNat % 256 ≠ 0 := by
  have harg : argField w = 0 ↔ w.toNat % 256 = 0 := by rw [← argField_toNat, BitVec.toNat_eq]; rfl
  unfold withoutOperand
  split <;> simp_all

/-- The three kinds of word, by `op`: DONE's, those of an operation without operand, and those with a reserved `op`. -/
theorem decode_cases (w : EventWord) :
    (w.toNat / 256 = 2 ∧ decode w = .operation (.done (argField w))) ∨
    (w.toNat / 256 ∈ [0, 1, 3, 4, 5, 6, 7, 15] ∧
      ∃ j, encode j = packWord (opField w) 0 ∧ decode w = withoutOperand w j) ∨
    ((8 ≤ w.toNat / 256 ∧ w.toNat / 256 ≤ 14) ∧ decode w = .invalid .reservedOp) := by
  have hplain : ∀ (k : BitVec 4) (j : Instr), encode j = packWord k 0 → (opField w).toNat = k.toNat →
      encode j = packWord (opField w) 0 := fun k j hj hk => hj.trans (by rw [BitVec.eq_of_toNat_eq hk])
  have hmem {k : Nat} (hk : (opField w).toNat = k) (hin : k ∈ [0, 1, 3, 4, 5, 6, 7, 15]) :
      w.toNat / 256 ∈ [0, 1, 3, 4, 5, 6, 7, 15] := by rwa [← opField_toNat, hk]
  unfold decode
  split
  case h_3 h => exact .inl ⟨by rw [← opField_toNat, h], rfl⟩
  case h_10 =>
    refine .inr (.inr ⟨?_, rfl⟩)
    simp only [opField_toNat, imp_false] at *
    omega
  all_goals exact .inr (.inl ⟨hmem ‹_› (by decide), _, hplain _ _ rfl ‹_›, rfl⟩)

/-- A word decodes to an operation exactly when it is that operation's word (R52). -/
theorem decode_eq_operation_iff : decode w = .operation i ↔ encode i = w := by
  constructor
  · intro h
    obtain ⟨hop, hd⟩ | ⟨-, j, hj, hd⟩ | ⟨-, hd⟩ := decode_cases w <;> rw [hd] at h
    · obtain rfl : .done (argField w) = i := Verdict.operation.inj h
      exact encode_done_iff.mpr ⟨BitVec.eq_of_toNat_eq (opField_toNat.trans hop), rfl⟩
    · obtain ⟨harg, rfl⟩ := withoutOperand_eq_operation.mp h
      rw [hj, ← harg, packWord_fields]
    · cases h
  · rintro rfl
    cases i with
    | done v => simp [encode, decode, sampleOperand]
    | idle | tick | svct | svca | svc | arm | pwmck | reset => rfl

/-! ### The rows of the opcode map (R45) -/

/-- A row whose mask is full is matched by its one word. -/
theorem hits_of_full_mask {r : OpRow} (hmask : r.mask = 0xFFF) : r.hits w = true ↔ r.fixed = w := by
  have hall : w &&& 0xFFF = w := BitVec.and_allOnes
  rw [OpRow.hits, hmask, hall, beq_iff_eq, eq_comm]

/-- DONE's row is matched by its `op`, whatever `arg` is. -/
theorem hits_done {v : Sample} : (Instr.row (.done v)).hits w = true ↔ opField w = 2 := by
  have hmask : w &&& 0xF00 = packWord (opField w) 0 := by
    calc w &&& 0xF00 = (opField w ++ argField w) &&& ((0xF : BitVec 4) ++ (0 : BitVec 8)) := by
          exact congrArg (· &&& 0xF00) (packWord_fields w).symm
      _ = packWord (opField w) 0 := by
          rw [BitVec.and_append]
          exact congrArg₂ packWord BitVec.and_allOnes BitVec.and_zero
  calc (Instr.row (.done v)).hits w = true ↔ w &&& 0xF00 = packWord 2 0 := beq_iff_eq
    _ ↔ opField w = 2 := by rw [hmask]; exact BitVec.append_left_inj _

/-- Matching the row, with DONE's operand read off the word, is being the operation's word. -/
theorem hits_row_iff : (i.row.hits w = true ∧ ∀ v, i = .done v → v.toNat = w.toNat % 256) ↔ encode i = w := by
  cases i with
  | done v =>
    have harg : (∀ u, Instr.done v = .done u → u.toNat = w.toNat % 256) ↔ v = argField w := by
      simp [← argField_toNat, ← BitVec.toNat_eq]
    rw [hits_done, harg, encode_done_iff]
  | idle | tick | svct | svca | svc | arm | pwmck | reset =>
    rw [hits_of_full_mask rfl]
    exact and_iff_left (by simp)

/-! ### Invalid words (R47) -/

theorem decode_invalid_iff : (∃ why, decode w = .invalid why) ↔
    ((8 ≤ w.toNat / 256 ∧ w.toNat / 256 ≤ 14) ∨
      (w.toNat / 256 ∈ [0, 1, 3, 4, 5, 6, 7, 15] ∧ w.toNat % 256 ≠ 0)) := by
  obtain ⟨hop, hd⟩ | ⟨hop, j, -, hd⟩ | ⟨hop, hd⟩ := decode_cases w
  · simp [hd, hop]
  · have hres : ¬ (8 ≤ w.toNat / 256 ∧ w.toNat / 256 ≤ 14) := by simp only [List.mem_cons, List.not_mem_nil, or_false] at hop; omega
    rw [hd, withoutOperand_invalid_iff, or_iff_right hres, and_iff_right hop]
  · exact iff_of_true ⟨_, hd⟩ (.inl hop)

/-- The valid words as numbers: the eight operations without operand, and DONE's 256. -/
def validWords : List Nat :=
  [0x000, 0x100, 0x300, 0x400, 0x500, 0x600, 0x700, 0xF00] ++ List.range' 0x200 256

theorem mem_validWords_iff {n : Nat} :
    n ∈ validWords ↔ n / 256 = 2 ∨ (n / 256 ∈ [0, 1, 3, 4, 5, 6, 7, 15] ∧ n % 256 = 0) := by
  simp only [validWords, List.mem_append, List.mem_cons, List.not_mem_nil, or_false, List.mem_range'_1]
  omega

theorem validWords_nodup : validWords.Nodup := by
  refine List.nodup_append.mpr ⟨by decide, List.nodup_range', fun a ha b hb => ?_⟩
  simp only [List.mem_cons, List.not_mem_nil, or_false] at ha
  rw [List.mem_range'_1] at hb
  omega

theorem decodeTableWord_isSome_iff {n : Nat} (hn : n < 4096) :
    (decodeTableWord 12 n).isSome ↔ n ∈ validWords := by
  have hword : tableWord 12 n = BitVec.ofNat 12 n := by simp [tableWord, Nat.mod_eq_of_lt hn, hn]
  have hnat : (tableWord 12 n).toNat = n := by simp [hword, Nat.mod_eq_of_lt hn]
  have hvalid : (decodeTableWord 12 n).isSome ↔ ¬ ∃ why, decode (tableWord 12 n) = .invalid why := by
    unfold decodeTableWord
    cases decode (tableWord 12 n) <;> simp
  rw [hvalid, decode_invalid_iff, hnat, mem_validWords_iff]
  simp only [List.mem_cons, List.not_mem_nil, or_false]
  omega

theorem valid_word_count : ((List.range 4096).filter fun n => (decodeTableWord 12 n).isSome).length = 264 := by
  have hperm : ((List.range 4096).filter fun n => (decodeTableWord 12 n).isSome).Perm validWords := by
    refine (List.perm_ext_iff_of_nodup (List.nodup_range.filter _) validWords_nodup).mpr fun n => ?_
    rw [List.mem_filter, List.mem_range]
    refine ⟨fun ⟨hn, hs⟩ => (decodeTableWord_isSome_iff hn).mp hs, fun h => ?_⟩
    have hn : n < 4096 := by
      simp only [mem_validWords_iff, List.mem_cons, List.not_mem_nil, or_false] at h
      omega
    exact ⟨hn, (decodeTableWord_isSome_iff hn).mpr h⟩
  rw [hperm.length_eq]
  simp [validWords]

end Sys2Proof

namespace Sys2Proof.Machine
variable {s : State} {ws : List EventWord} {w : EventWord} {why : InvalidWord}

theorem step_invalid {rest : List EventWord} (ht : s.trace = w :: rest) (hd : decode w = .invalid why) :
    step s = .refused (.invalidWord s.line w why) := by
  unfold step
  simp [ht, hd]

/-- A list that holds an invalid word has a first one, wherever its lines are numbered from. -/
theorem firstInvalid_of_mem (hw : w ∈ ws) (hd : decode w = .invalid why) (n : Nat) :
    ∃ m w' why', w' ∈ ws ∧ decode w' = .invalid why' ∧ firstInvalid n ws = some (.invalidWord m w' why') := by
  induction ws generalizing n with
  | nil => cases hw
  | cons x xs ih =>
    cases hx : decode x with
    | invalid whyx => exact ⟨n, x, whyx, List.mem_cons_self, hx, by simp [firstInvalid, hx]⟩
    | operation i =>
      have hxs : w ∈ xs := (List.mem_cons.mp hw).resolve_left (by rintro rfl; simp [hx] at hd)
      obtain ⟨m, w', why', hmem, hd', hfirst⟩ := ih hxs (n + 1)
      exact ⟨m, w', why', List.mem_cons_of_mem x hmem, hd', by simp [firstInvalid, hx, hfirst]⟩

/-- A trace with a first invalid word is refused before any step (R47). -/
theorem runTrace_of_firstInvalid {r : Refusal} (h : firstInvalid 1 ws = some r) : runTrace ws s = .refused r := by
  simp [runTrace, loadTrace, h]

end Sys2Proof.Machine

namespace Sys2Proof.Proofs
open Sys2Proof.Machine

/-- Settles O3: either side says that the word is the operation's own word. -/
theorem decodeFollowsOpcodeMap : Obligations.DecodeFollowsOpcodeMap :=
  fun _ _ => decode_eq_operation_iff.trans hits_row_iff.symm

/-- Settles O4: the decoder's cases give the invalid words and their number; a trace is refused at its first invalid word. -/
theorem invalidWordsAreRefused : Obligations.InvalidWordsAreRefused := by
  refine ⟨fun w => decode_invalid_iff, valid_word_count, fun s w rest why => step_invalid, fun ws w why s hw hd => ?_⟩
  obtain ⟨n, w', why', hmem, hd', hfirst⟩ := firstInvalid_of_mem hw hd 1
  exact ⟨n, w', why', hmem, hd', runTrace_of_firstInvalid hfirst⟩

end Sys2Proof.Proofs
end

