-- ==== Sys2Proof/Proofs/Guards.lean ====
section
/-! SUPPORT. Guards (spec/30_encoding.md R51): every operation is one effect behind the conjunct of its guard that blocks it, if one
does; and a run that comes to a refused line is refused there, whatever follows. -/
namespace Sys2Proof.Machine
variable {P : Params} {i : Instr} {s : State} {g : FalseGuard}

/-! ### The blocking conjunct -/

/-- The conjunct of the operation's guard that its refusal names, if the guard is false (R51; log 10). -/
def blockedBy (P : Params) (i : Instr) (s : State) : Option FalseGuard :=
  match i with
  | .done _ => doneBlocked s
  | .svct => svctBlocked P s
  | .svca => svcaBlocked P s
  | .svc => if timerServiceable P s || adcServiceable s then none else some .nothingServiceable
  | .idle | .tick | .arm | .pwmck | .reset => none

/-- The arbiter takes no service exactly when neither source is serviceable, whatever the order (R105). -/
theorem chosen_eq_none_iff {pick : Service} :
    chosen P pick s = none ↔ ¬ (timerServiceable P s || adcServiceable s) = true := by
  unfold chosen
  split
  case h_4 ht ha => cases P.order <;> simp [ht]
  all_goals simp_all

/-- Each operation is one effect, taken where no conjunct blocks it. -/
theorem execWith_eq_guarded (P : Params) (i : Instr) (s : State) :
    ∃ t, execWith P i s = guarded (blockedBy P i s) s (.next t) := by
  cases i with
  | svca => exact ⟨servedAdc s, congrArg (guarded (svcaBlocked P s) s) serviceAdc_eq⟩
  | svc =>
    cases hk : chosen P (Config.arbiterPicks s.draws) s with
    | none =>
      have hnone := chosen_eq_none_iff.mp hk
      exact ⟨s, by simp only [execWith, svcWith, hk, blockedBy, if_neg hnone, guarded]⟩
    | some k =>
      have hsome : (timerServiceable P s || adcServiceable s) = true :=
        by_contra fun hnone => nomatch hk.symm.trans (chosen_eq_none_iff.mpr hnone)
      simp only [execWith, svcWith, hk, blockedBy, if_pos hsome, guarded]
      cases k with
      | timer => exact ⟨_, rfl⟩
      | adc => exact ⟨_, congrArg _ serviceAdc_eq⟩
  | idle | tick | done | svct | arm | pwmck | reset => exact ⟨_, rfl⟩

/-- Nothing blocks the operation exactly when its guard holds. -/
theorem blockedBy_eq_none_iff : blockedBy P i s = none ↔ Enabled P i s := by
  cases i with
  | done v => simp [blockedBy, doneBlocked, Enabled]
  | svct => exact svctBlocked_eq_none
  | svca => exact svcaBlocked_eq_none
  | svc => simp only [blockedBy, Enabled, ite_eq_left_iff, reduceCtorEq, imp_false, not_not, Bool.or_eq_true]
  | idle | tick | arm | pwmck | reset => exact iff_of_true rfl trivial

/-- What blocks an operation is a false conjunct of that operation's own guard. -/
theorem fails_of_blockedBy (h : blockedBy P i s = some g) : g ∈ guardConjuncts i ∧ g.Fails P s := by
  cases i with
  | done v =>
    simp only [blockedBy, doneBlocked] at h
    split_ifs at h with hbusy
    cases h
    exact ⟨List.mem_singleton_self _, Bool.eq_false_of_not_eq_true hbusy⟩
  | svct =>
    simp only [blockedBy, svctBlocked] at h
    split_ifs at h with hif hie hdefer horder <;> cases h
    · exact ⟨by decide, (Bool.not_eq_true' _).mp hif⟩
    · exact ⟨by decide, (Bool.not_eq_true' _).mp hie⟩
    · exact ⟨by decide, hdefer⟩
    · exact ⟨by decide, horder⟩
  | svca =>
    simp only [blockedBy, svcaBlocked] at h
    split_ifs at h with hif hie horder <;> cases h
    · exact ⟨by decide, (Bool.not_eq_true' _).mp hif⟩
    · exact ⟨by decide, (Bool.not_eq_true' _).mp hie⟩
    · exact ⟨by decide, horder⟩
  | svc =>
    simp only [blockedBy] at h
    split_ifs at h with hnone
    cases h
    exact ⟨by decide, Bool.or_eq_false_iff.mp (Bool.eq_false_of_not_eq_true hnone)⟩
  | idle | tick | arm | pwmck | reset => cases h

/-- Where the guard of R51 holds, none of its conjuncts fails. -/
theorem not_fails_of_enabled (h : Enabled P i s) : ∀ g ∈ guardConjuncts i, ¬ g.Fails P s := by
  cases i with
  | done v => simpa [guardConjuncts, FalseGuard.Fails, Enabled] using h
  | svct =>
    obtain ⟨hs, horder⟩ := h
    obtain ⟨hif, hie, hdefer⟩ := timerServiceable_iff.mp hs
    simp_all [guardConjuncts, FalseGuard.Fails]
  | svca =>
    obtain ⟨hs, horder⟩ := h
    obtain ⟨hif, hie⟩ := adcServiceable_iff.mp hs
    simp_all [guardConjuncts, FalseGuard.Fails]
  | svc =>
    simp only [Enabled] at h
    rw [guardConjuncts, List.forall_mem_singleton]
    simpa [FalseGuard.Fails, or_iff_not_imp_left] using h
  | idle | tick | arm | pwmck | reset => exact fun g hg => nomatch hg

theorem enabled_iff_no_conjunct_fails : Enabled P i s ↔ ∀ g ∈ guardConjuncts i, ¬ g.Fails P s := by
  refine ⟨not_fails_of_enabled, fun h => blockedBy_eq_none_iff.mp ?_⟩
  by_contra hb
  obtain ⟨g, hg⟩ := Option.ne_none_iff_exists'.mp hb
  obtain ⟨hmem, hfails⟩ := fails_of_blockedBy hg
  exact h g hmem hfails

theorem execWith_of_enabled (h : Enabled P i s) : ∃ t, execWith P i s = .next t := by
  obtain ⟨t, ht⟩ := execWith_eq_guarded P i s
  exact ⟨t, by rw [ht, blockedBy_eq_none_iff.mpr h]; rfl⟩

theorem execWith_of_not_enabled (h : ¬ Enabled P i s) :
    ∃ g ∈ guardConjuncts i, execWith P i s = .refused (.notEnabled s.line g) ∧ g.Fails P s := by
  obtain ⟨t, ht⟩ := execWith_eq_guarded P i s
  obtain ⟨g, hg⟩ := Option.ne_none_iff_exists'.mp (mt blockedBy_eq_none_iff.mp h)
  obtain ⟨hmem, hfails⟩ := fails_of_blockedBy hg
  exact ⟨g, hmem, by rw [ht, hg]; rfl, hfails⟩

/-! ### Runs that come to a refused line -/

theorem onNext_assoc (o : Result) (f f' : State → Result) :
    onNext (onNext o f) f' = onNext o fun u => onNext (f u) f' := by
  cases o <;> rfl

/-- A run of two parts is the second part from where the first one ends. -/
theorem runOps_append (before after : List Instr) (r : State) :
    runOps P (before ++ after) r = onNext (runOps P before r) (runOps P after) := by
  induction before generalizing r with
  | nil => rfl
  | cons j js ih => simp only [List.cons_append, runOps, ih, onNext_assoc]

/-- A refused line refuses the run that comes to it, whatever lines follow (R51). -/
theorem runOps_of_refused {before after : List Instr} {r : State} {why : Refusal} (hr : runOps P before r = .next s)
    (h : execWith P i s = .refused why) : runOps P (before ++ i :: after) r = .refused why := by
  simp [runOps_append, hr, runOps, h]

end Sys2Proof.Machine

namespace Sys2Proof.Proofs
open Sys2Proof.Machine

/-- Settles O21: an operation is one effect behind its blocking conjunct, which is none exactly where the guard holds. -/
theorem guardsDecideEnabled : Obligations.GuardsDecideEnabled := by
  refine fun P i s => ⟨enabled_iff_no_conjunct_fails, execWith_of_enabled, fun h => ?_⟩
  obtain ⟨g, hmem, hexec, hfails⟩ := execWith_of_not_enabled h
  exact ⟨g, hmem, hexec, hfails, fun before after r hr => runOps_of_refused hr hexec⟩

end Sys2Proof.Proofs
end

