-- ==== Sys2Proof/Proofs/Mapper.lean ====
section
/-! SUPPORT. The mapper (spec/40_mapper.md R61 to R64): where each direction is returned, the value of the exact formula on each of its
three ranges, and the narrowing to 8 bits, which loses nothing. -/
namespace Sys2Proof.Machine
variable {v : Sample}

/-! ### The direction (R61) -/

theorem direction_eq_forward_iff : direction v = .forward ↔ v.toNat > 127 := by
  simp [direction]

theorem direction_eq_reverse_iff : direction v = .reverse ↔ v.toNat ≤ 127 := by
  simp [direction]

/-! ### The exact formula on its three ranges (R62) -/

theorem magnitudeExact_below (h : v.toNat < 127) : magnitudeExact v = 254 - 2 * (v.toNat : Int) := if_pos h

theorem magnitudeExact_above (h : v.toNat > 128) : magnitudeExact v = 2 * (v.toNat : Int) - 256 := by
  rw [magnitudeExact, if_neg (by omega), if_pos h]

theorem magnitudeExact_deadZone (h : v.toNat = 127 ∨ v.toNat = 128) : magnitudeExact v = 0 := by
  rw [magnitudeExact, if_neg (by omega), if_neg (by omega)]

/-! ### The narrowing to 8 bits (R64) -/

theorem magnitudeExact_range (v : Sample) : 0 ≤ magnitudeExact v ∧ magnitudeExact v ≤ 254 := by
  have hv := v.isLt
  obtain h | h | h : v.toNat < 127 ∨ v.toNat > 128 ∨ (v.toNat = 127 ∨ v.toNat = 128) := by omega
  · rw [magnitudeExact_below h]; omega
  · rw [magnitudeExact_above h]; omega
  · rw [magnitudeExact_deadZone h]; decide

/-- The exact result is in 0 to 254, so its residue modulo 256 is the result itself. -/
theorem magnitude_toNat (v : Sample) : ((magnitude v).toNat : Int) = magnitudeExact v := by
  obtain ⟨hlo, hhi⟩ := magnitudeExact_range v
  rw [magnitude, BitVec.toNat_ofInt]
  omega

end Sys2Proof.Machine

namespace Sys2Proof.Proofs
open Sys2Proof.Machine

/-- Settles O29: the magnitude is the exact formula's value, read off on each range; `map` is the pair by definition. -/
theorem mapperFollowsFormulas : Obligations.MapperFollowsFormulas := fun v =>
  ⟨direction_eq_forward_iff, direction_eq_reverse_iff,
    fun h => (magnitude_toNat v).trans (magnitudeExact_below h),
    fun h => (magnitude_toNat v).trans (magnitudeExact_above h),
    fun h => Int.ofNat_eq_zero.mp ((magnitude_toNat v).trans (magnitudeExact_deadZone h)), rfl⟩

end Sys2Proof.Proofs
end

