-- ==== Sys2Proof/Proofs/Scheduler.lean ====
section
/-! SUPPORT. The scheduler (spec/41_scheduler.md R71 to R79): the frames of the named writes it is made of, composed, and what
TICK, DONE and SVCT in Converting answer. -/
namespace Sys2Proof.Machine
variable {P : Params} {s t u : State}

/-! ### Frames -/

/-- One effect after another: the registers, the events and the draws of both. -/
theorem Effect.trans {w w' : List Reg} {es es' : List Event} {d d' : Nat} (h : Effect w es d s t) (h' : Effect w' es' d' t u) :
    Effect (w ++ w') (es ++ es') (d + d') s u where
  registers r hr := by
    obtain ⟨hw, hw'⟩ := not_or.mp (mt List.mem_append.mpr hr)
    exact (h'.registers r hw').trans (h.registers r hw)
  history := by rw [h'.history, h.history, List.append_assoc]
  draws := by rw [h'.draws, h.draws, Nat.add_assoc]
  trace := h'.trace.trans h.trace
  line := h'.line.trans h.line

/-- Replacing one register leaves the other nine as they were (R34). -/
theorem get_put_of_ne {r r' : Reg} (h : r' ≠ r) (n : Nat) : r'.get (r.put n s) = r'.get s := by
  cases r <;> cases r' <;> trivial

theorem effect_put (r : Reg) (n : Nat) : Effect [r] [] 0 s (r.put n s) where
  registers _ hr' := get_put_of_ne (mt List.mem_singleton.mpr hr') n
  history := by rw [State.put_history, List.append_nil]
  draws := State.put_draws s r n
  trace := State.put_trace s r n
  line := State.put_line s r n

/-! The named writes as replacements of a register by a number. -/

theorem setAdres_eq_put (v : Sample) : s.setAdres v = Reg.adres.put v.toNat s := by
  simp [State.setAdres, Reg.put]

theorem setTmrIf_eq_put (b : Bool) : s.setTmrIf b = Reg.tmrIf.put b.toNat s := by
  cases b <;> rfl

theorem setAdcIf_eq_put (b : Bool) : s.setAdcIf b = Reg.adcIf.put b.toNat s := by
  cases b <;> rfl

theorem setConvBusy_eq_put (b : Bool) : s.setConvBusy b = Reg.convBusy.put b.toNat s := by
  cases b <;> rfl

theorem effect_setAdres (v : Sample) : Effect [.adres] [] 0 s (s.setAdres v) :=
  setAdres_eq_put v ▸ effect_put .adres v.toNat

theorem effect_setTmrIf (b : Bool) : Effect [.tmrIf] [] 0 s (s.setTmrIf b) :=
  setTmrIf_eq_put b ▸ effect_put .tmrIf b.toNat

theorem effect_setAdcIf (b : Bool) : Effect [.adcIf] [] 0 s (s.setAdcIf b) :=
  setAdcIf_eq_put b ▸ effect_put .adcIf b.toNat

theorem effect_setConvBusy (b : Bool) : Effect [.convBusy] [] 0 s (s.setConvBusy b) :=
  setConvBusy_eq_put b ▸ effect_put .convBusy b.toNat

/-- An event writes no register (R22). -/
theorem effect_emit (e : Event) : Effect [] [e] 0 s (s.emit e) where
  registers r _ := by cases r <;> rfl
  history := rfl
  draws := rfl
  trace := rfl
  line := rfl

theorem effect_requestConversion : Effect [.convBusy] [.adcStart] 0 s s.requestConversion :=
  (effect_emit .adcStart).trans (effect_setConvBusy true)

/-! ### TICK and DONE (R71, R72) -/

/-- A second period is merged with the waiting one. -/
theorem setTmrIf_eq_self {b : Bool} (h : s.tmrIf = b) : s.setTmrIf b = s := by
  subst h
  rfl

theorem execDone_of_busy (v : Sample) (h : s.convBusy = true) :
    execDone v s = .next (((s.setAdres v).setAdcIf true).setConvBusy false) := by
  simp [execDone, doneBlocked, h, guarded]

theorem execDone_of_not_busy (v : Sample) (h : s.convBusy = false) :
    execDone v s = .refused (.notEnabled s.line .convBusyClear) := by
  simp [execDone, doneBlocked, h, guarded]

/-! ### SVCT (R74) -/

/-- Outside Defer, PHASE plays no part in whether the period-elapsed service is taken. -/
theorem svctWith_of_not_defer (hif : s.tmrIf = true) (hie : s.tmrIe = true)
    (horder : ¬ (P.order = .adcFirst ∧ adcServiceable s = true)) (hp : P.policy ≠ .defer) :
    svctWith P s = .next (serviceTimer P s) := by
  have hserviceable : timerServiceable P s = true := timerServiceable_iff.mpr ⟨hif, hie, fun h => absurd h hp⟩
  exact svctWith_eq_next.mpr ⟨⟨hserviceable, horder⟩, rfl⟩

/-- Under Defer the service waits while PHASE is Converting. -/
theorem svctWith_deferred (hif : s.tmrIf = true) (hie : s.tmrIe = true) (hs : s.phase = .converting)
    (hp : P.policy = .defer) : svctWith P s = .refused (.notEnabled s.line .deferredWhileConverting) := by
  simp [svctWith, svctBlocked, hif, hie, hs, hp, guarded]

/-- Under Drop the period that finds a conversion unserviced is discarded. -/
theorem svctWith_dropped (hif : s.tmrIf = true) (hie : s.tmrIe = true) (hs : s.phase = .converting)
    (horder : ¬ (P.order = .adcFirst ∧ adcServiceable s = true)) (hp : P.policy = .drop) :
    svctWith P s = .next (s.setTmrIf false) := by
  rw [svctWith_of_not_defer hif hie horder (by simp [hp]), serviceTimer_drop hs hp]

/-- Under Restart it starts the conversion anew. -/
theorem svctWith_restarted (hif : s.tmrIf = true) (hie : s.tmrIe = true) (hs : s.phase = .converting)
    (horder : ¬ (P.order = .adcFirst ∧ adcServiceable s = true)) (hp : P.policy = .restart) :
    svctWith P s = .next (s.setTmrIf false).requestConversion := by
  rw [svctWith_of_not_defer hif hie horder (by simp [hp]), serviceTimer_restart hs hp]

end Sys2Proof.Machine

namespace Sys2Proof.Proofs
open Sys2Proof.Machine

/-- Settles O13: each policy's outcome with the frame of its writes; the block is the case Drop, Either. -/
theorem svctInConvertingFollowsPolicy : Obligations.SvctInConvertingFollowsPolicy := by
  refine ⟨fun P s hif hie hs horder => ⟨fun hp => ?_, svctWith_deferred hif hie hs, fun hp => ?_⟩,
    fun s hif hie hs => ?_⟩
  · exact ⟨_, svctWith_dropped hif hie hs horder hp, rfl, effect_setTmrIf false⟩
  · exact ⟨_, svctWith_restarted hif hie hs horder hp, rfl, rfl, (effect_setTmrIf false).trans effect_requestConversion⟩
  · have horder : ¬ (Config.params.order = .adcFirst ∧ adcServiceable s = true) := fun ⟨h, _⟩ => nomatch h
    exact ⟨_, svctWith_dropped hif hie hs horder rfl, rfl, effect_setTmrIf false⟩

/-- Settles O9: IDLE answers the state it was given, by definition (R79). -/
theorem idleChangesNothing : Obligations.IdleChangesNothing := fun _ => rfl

/-- Settles O10: TICK is the one write of TMR_IF, which rewrites a set flag to itself. -/
theorem tickSetsPendingFlag : Obligations.TickSetsPendingFlag :=
  fun s => ⟨s.setTmrIf true, rfl, rfl, effect_setTmrIf true, setTmrIf_eq_self⟩

/-- Settles O11: DONE is three writes behind its guard on CONV_BUSY. -/
theorem doneLatchesSample : Obligations.DoneLatchesSample := by
  refine fun v s => ⟨fun hbusy => ⟨_, execDone_of_busy v hbusy, rfl, rfl, rfl, ?_⟩, execDone_of_not_busy v⟩
  exact ((effect_setAdres v).trans (effect_setAdcIf true)).trans (effect_setConvBusy false)

end Sys2Proof.Proofs
end

