-- ==== Sys2Proof/Proofs/Output.lean ====
section
/-! SUPPORT. The PWM output controller (spec/42_output.md R91 to R95): the frames of APPLY and of PWMCK, a run of counts in closed
form, and `pwm_out` as the comparison of the two current registers. -/
namespace Sys2Proof.Machine
variable {P : Params} {s : State} {d : DirField} {m : Duty}

/-! ### The time base (R93, R94) -/

theorem effect_setPwmcnt (n : Nat) : Effect [.pwmcnt] [] 0 s (s.setPwmcnt n) := effect_put .pwmcnt n

/-- A run of counts from a count in range adds their number modulo the period, whatever the period. -/
theorem runOps_pwmck (n : Nat) (h : PwmInRange P s) : runOps P (List.replicate n .pwmck) s =
    .next { s with pwmcnt := (s.pwmcnt + n) % P.pwmPeriod, line := s.line + n } := by
  induction n generalizing s with
  | zero => simp only [List.replicate_zero, runOps, Nat.add_zero, Nat.mod_eq_of_lt h]
  | succ n ih =>
    have hcounted : PwmInRange P { s.setPwmcnt ((s.pwmcnt + 1) % P.pwmPeriod) with line := s.line + 1 } :=
      Nat.mod_lt _ (Nat.zero_lt_of_lt h)
    refine (ih hcounted).trans ?_
    simp only [State.setPwmcnt, Nat.mod_add_mod, Nat.add_assoc, Nat.add_comm 1 n]

/-! ### APPLY (R91) -/

theorem setOutputs_eq_put : s.setOutputs d m = Reg.duty.put m.toNat (Reg.dirOut.put d.toNat s) := by
  simp [State.setOutputs, Reg.put]

theorem effect_setOutputs : Effect [.dirOut, .duty] [] 0 s (s.setOutputs d m) :=
  setOutputs_eq_put ▸ (effect_put .dirOut d.toNat).trans (effect_put .duty m.toNat)

theorem setOutputs_eq_self (hd : s.dirOut = d) (hm : s.duty = m) : s.setOutputs d m = s := by
  subst hd hm
  rfl

theorem applyLegal_iff : applyLegal d m = true ↔ (d = 0b01 ∨ d = 0b10) ∧ m.toNat % 2 = 0 ∧ m.toNat ≤ 254 := by
  simp [applyLegal, and_assoc]

theorem applyPair_of_legal (h : applyLegal d m = true) :
    applyPair d m s = .next ((s.setOutputs d m).emit (.apply d m)) := if_pos h

/-! ### The comparison (R95) -/

theorem pwmOut_eq_true_iff : pwmOut s = true ↔ s.pwmcnt < s.duty.toNat := decide_eq_true_iff

theorem pwmOut_eq_false_iff : pwmOut s = false ↔ s.duty.toNat ≤ s.pwmcnt := decide_eq_false_iff_not.trans Nat.not_lt

@[simp] theorem countDraw_pwmcnt (c : Bool) : (countDraw c s).pwmcnt = s.pwmcnt := by cases c <;> rfl

theorem servedAdc_pwmcnt : (servedAdc s).pwmcnt = s.pwmcnt := rfl

theorem servedAdc_duty : (servedAdc s).duty = magnitude s.adres := rfl

end Sys2Proof.Machine

namespace Sys2Proof.Proofs
open Sys2Proof.Machine

/-- Settles O49: a run of n counts in closed form; PWM_PERIOD of them add nothing modulo the period. -/
theorem timeBaseReturnsAfterOnePeriod : Obligations.TimeBaseReturnsAfterOnePeriod := by
  refine fun P s hrange => ⟨?_, fun n => ⟨_, runOps_pwmck n hrange, Nat.mod_lt _ (Nat.zero_lt_of_lt hrange), rfl⟩⟩
  have hreturn : (s.pwmcnt + P.pwmPeriod) % P.pwmPeriod = s.pwmcnt :=
    (Nat.add_mod_right ..).trans (Nat.mod_eq_of_lt hrange)
  rw [runOps_pwmck P.pwmPeriod hrange, hreturn]

/-- Settles O51: the conversion-complete service leaves PWMCNT and puts the sample's magnitude in DUTY, which `pwm_out` compares. -/
theorem dutyChangeActsAtOnce : Obligations.DutyChangeActsAtOnce := by
  refine ⟨fun s => pwmOut_eq_true_iff, fun P i s t h hk => ?_⟩
  obtain ⟨c, rfl⟩ := eq_of_takes_adc h hk
  rw [pwmOut_eq_true_iff, pwmOut_eq_false_iff, countDraw_pwmcnt, countDraw_duty, servedAdc_pwmcnt, servedAdc_duty]
  exact ⟨rfl, id, id⟩

/-- Settles O18: PWMCK is the one write of PWMCNT; modulo 1 every count is 0. -/
theorem pwmckCountsModuloPeriod : Obligations.PwmckCountsModuloPeriod := by
  refine fun s => ⟨⟨_, rfl, rfl, effect_setPwmcnt _⟩, fun P => ⟨_, rfl, rfl, effect_setPwmcnt _, fun hone => ?_⟩⟩
  rw [State.setPwmcnt_pwmcnt, hone, Nat.mod_one]

/-- Settles O32: inside its contract APPLY is the write of both outputs and one event; where the outputs hold the pair already,
the event alone is left. -/
theorem applyWritesBothOutputs : Obligations.ApplyWritesBothOutputs := by
  intro d m s hd heven hle
  have hlegal : applyLegal d m = true := applyLegal_iff.mpr ⟨hd, heven, hle⟩
  refine ⟨_, applyPair_of_legal hlegal, rfl, rfl, rfl, rfl, effect_setOutputs.trans (effect_emit _), fun hdir hduty => ?_⟩
  rw [setOutputs_eq_self hdir hduty]
  exact ⟨(effect_emit _).registers, rfl⟩

end Sys2Proof.Proofs
end

