-- ==== Sys2Proof/Proofs/Flags.lean ====
section
/-! SUPPORT. The two pending flags (spec/60_exceptions.md R102 to R104): what each service does to them and to what is serviceable
after it, and the one pattern both flags follow through every step. -/
namespace Sys2Proof.Machine
variable {P : Params} {i : Instr} {s t : State}

/-! ### The services and the flags -/

@[simp] theorem countDraw_tmrIf (c : Bool) : (countDraw c s).tmrIf = s.tmrIf := by cases c <;> rfl
@[simp] theorem countDraw_adcIf (c : Bool) : (countDraw c s).adcIf = s.adcIf := by cases c <;> rfl

@[simp] theorem timerServiceable_countDraw (c : Bool) : timerServiceable P (countDraw c s) = timerServiceable P s := by
  cases c <;> rfl

@[simp] theorem adcServiceable_countDraw (c : Bool) : adcServiceable (countDraw c s) = adcServiceable s := by
  cases c <;> rfl

/-- The period-elapsed service clears its own flag. -/
theorem serviceTimer_tmrIf (h : timerServiceable P s = true) : (serviceTimer P s).tmrIf = false := by
  obtain ⟨-, ht⟩ | ⟨-, -, ht⟩ | ⟨-, -, ht⟩ := serviceTimer_cases h <;> rw [ht] <;> rfl

/-- It leaves the other flag and its enable alone. -/
theorem serviceTimer_adcIf_adcIe (h : timerServiceable P s = true) :
    (serviceTimer P s).adcIf = s.adcIf ∧ (serviceTimer P s).adcIe = s.adcIe := by
  obtain ⟨-, ht⟩ | ⟨-, -, ht⟩ | ⟨-, -, ht⟩ := serviceTimer_cases h <;> rw [ht] <;> exact ⟨rfl, rfl⟩

theorem timerServiceable_serviceTimer (h : timerServiceable P s = true) : timerServiceable P (serviceTimer P s) = false := by
  simp [timerServiceable, serviceTimer_tmrIf h]

theorem adcServiceable_serviceTimer (h : timerServiceable P s = true) :
    adcServiceable (serviceTimer P s) = adcServiceable s := by
  obtain ⟨hif, hie⟩ := serviceTimer_adcIf_adcIe h
  rw [adcServiceable, hif, hie, adcServiceable]

theorem adcServiceable_servedAdc : adcServiceable (servedAdc s) = false := rfl

/-- The conversion-complete service ends in Idle, so a waiting period is serviceable after it even under Defer. -/
theorem timerServiceable_servedAdc : timerServiceable P (servedAdc s) = true ↔ s.tmrIf = true ∧ s.tmrIe = true :=
  timerServiceable_iff.trans (and_congr_right fun _ => and_iff_left fun _ => rfl)

/-! ### A flag through a step (R102) -/

/-- How a flag goes through a step: `event` sets it, `cleared` (its service or a RESET) leaves it 0, and otherwise it holds. -/
structure FlagStep (event cleared : Prop) (before after : Bool) : Prop where
  set : event → after = true
  clear : cleared → after = false
  hold : ¬ event → ¬ cleared → after = before

namespace FlagStep
variable {event cleared : Prop} {before after : Bool}

/-- A flag that rises had its event. -/
theorem event_of_rise (h : FlagStep event cleared before after) (hb : before = false) (ha : after = true) : event := by
  by_contra he
  have hc : ¬ cleared := fun hc => by simp [h.clear hc] at ha
  simp [h.hold he hc, hb] at ha

/-- A flag that falls was cleared. -/
theorem cleared_of_fall (h : FlagStep event cleared before after) (hb : before = true) (ha : after = false) : cleared := by
  by_contra hc
  have he : ¬ event := fun he => by simp [h.set he] at ha
  simp [h.hold he hc, hb] at ha

end FlagStep

/-- TMR_IF: TICK is its event, the period-elapsed service and RESET clear it. -/
theorem tmrIf_flagStep (h : execWith P i s = .next t) :
    FlagStep (i = .tick) (serviceOf P i s = some .timer ∨ i = .reset) s.tmrIf t.tmrIf := by
  cases move_of_execWith h with
  | tick hi ht => subst hi ht; exact ⟨fun _ => rfl, by simp [serviceOf], by simp⟩
  | timer hi hs c ht =>
    subst ht
    exact ⟨fun htick => by simp [htick, serviceOf] at hi, fun _ => by simp [serviceTimer_tmrIf hs],
      fun _ hc => absurd (.inl hi) hc⟩
  | adc hi _ c ht =>
    subst ht
    exact ⟨fun htick => by simp [htick, serviceOf] at hi, by rintro (hk | rfl) <;> simp_all [serviceOf],
      fun _ _ => countDraw_tmrIf c⟩
  | reset hi ht => subst hi; cases ht; exact ⟨by simp, fun _ => rfl, by simp⟩
  | idle hi ht | done _ hi _ ht | arm hi ht | pwmck hi ht =>
    subst hi ht
    exact ⟨by simp, by simp [serviceOf], fun _ _ => rfl⟩

/-- ADC_IF: DONE is its event, the conversion-complete service and RESET clear it. -/
theorem adcIf_flagStep (h : execWith P i s = .next t) :
    FlagStep (∃ v, i = .done v) (serviceOf P i s = some .adc ∨ i = .reset) s.adcIf t.adcIf := by
  cases move_of_execWith h with
  | done v hi _ ht => subst hi ht; exact ⟨fun _ => rfl, by simp [serviceOf], by simp⟩
  | adc hi _ c ht =>
    subst ht
    exact ⟨fun ⟨v, hdone⟩ => by simp [hdone, serviceOf] at hi, fun _ => countDraw_adcIf c,
      fun _ hc => absurd (.inl hi) hc⟩
  | timer hi hs c ht =>
    subst ht
    exact ⟨fun ⟨v, hdone⟩ => by simp [hdone, serviceOf] at hi, by rintro (hk | rfl) <;> simp_all [serviceOf],
      fun _ _ => by simp [serviceTimer_adcIf_adcIe hs]⟩
  | reset hi ht => subst hi; cases ht; exact ⟨by simp, fun _ => rfl, by simp⟩
  | idle hi ht | tick hi ht | arm hi ht | pwmck hi ht =>
    subst hi ht
    exact ⟨by simp, by simp [serviceOf], fun _ _ => rfl⟩

end Sys2Proof.Machine

namespace Sys2Proof.Proofs
open Sys2Proof.Machine

/-- Settles O24: both flags follow the one pattern, each with its own event and its own service. -/
theorem flagsSetByEventsClearedByServices : Obligations.FlagsSetByEventsClearedByServices := by
  intro P i s t h
  have htmr := tmrIf_flagStep h
  have hadc := adcIf_flagStep h
  exact ⟨htmr.event_of_rise, htmr.cleared_of_fall, hadc.event_of_rise, hadc.cleared_of_fall,
    htmr.set, fun v hv => hadc.set ⟨v, hv⟩, fun hk => htmr.clear (.inl hk), fun hk => hadc.clear (.inl hk),
    fun hi => ⟨htmr.clear (.inr hi), hadc.clear (.inr hi)⟩⟩

end Sys2Proof.Proofs
end

