-- ==== Sys2Proof/Proofs/Arbiter.lean ====
section
/-! SUPPORT. The arbiter (spec/60_exceptions.md R105, R107): SVC is the operation of the service it chooses, that operation's guard
being what the choice amounts to; and the two orders of two waiting services, carried out. -/
namespace Sys2Proof.Machine
variable {P : Params} {s t : State} {pick k : Service}

/-! ### What the arbiter chooses (R105) -/

/-- The Handler's operation that takes the service and no other: SVCT or SVCA. -/
def handlerOp : Service → Instr
  | .timer => .svct
  | .adc => .svca

/-- The guard of SVCT or SVCA holds where the arbiter chooses that service. -/
theorem enabled_of_chosen (h : chosen P pick s = some k) : Enabled P (handlerOp k) s := by
  obtain ⟨htimer, hadc⟩ := serviceable_of_chosen h
  cases k with
  | timer => exact ⟨htimer rfl, fun ⟨ho, ha⟩ => by simp [chosen, htimer rfl, ha, ho] at h⟩
  | adc => exact ⟨hadc rfl, fun ⟨ho, ht⟩ => by simp [chosen, hadc rfl, ht, ho] at h⟩

/-- Where the guard holds, the arbiter chooses the service at the latest when it is picked. -/
theorem chosen_of_enabled (h : Enabled P (handlerOp k) s) : chosen P k s = some k := by
  cases k with
  | timer =>
    obtain ⟨ht, horder⟩ := h
    cases ha : adcServiceable s with
    | false => simp [chosen, ht, ha]
    | true => cases ho : P.order <;> simp_all [chosen]
  | adc =>
    obtain ⟨ha, horder⟩ := h
    cases ht : timerServiceable P s with
    | false => simp [chosen, ht, ha]
    | true => cases ho : P.order <;> simp_all [chosen]

theorem exists_next_iff_exists_chosen : (∃ t, execWith P (handlerOp k) s = .next t) ↔ ∃ p, chosen P p s = some k := by
  refine ⟨fun ⟨t, ht⟩ => ⟨k, chosen_of_enabled (by_contra fun hn => ?_)⟩,
    fun ⟨p, hp⟩ => execWith_of_enabled (enabled_of_chosen hp)⟩
  obtain ⟨g, -, hrefused, -⟩ := execWith_of_not_enabled hn
  exact nomatch ht.symm.trans hrefused

/-! ### SVC is the operation of the chosen service -/

/-- SVC is that operation, up to the draw that an open choice costs (log 3). -/
theorem svcWith_of_chosen (h : chosen P pick s = some k) :
    svcWith P pick s = mapNext (countDraw (choiceIsOpen P s)) (execWith P (handlerOp k) s) := by
  have hfree : blockedBy P (handlerOp k) s = none := blockedBy_eq_none_iff.mpr (enabled_of_chosen h)
  have htake : execWith P (handlerOp k) s = takeService P k s := by
    cases k with
    | timer => exact congrArg (guarded · s _) hfree
    | adc => exact congrArg (guarded · s _) hfree
  simp only [svcWith, h, htake]

/-- An open choice costs one draw. -/
theorem svcWith_of_open_choice (h : chosen P pick s = some k) (hopen : choiceIsOpen P s = true) :
    svcWith P pick s = mapNext State.nextDraw (execWith P (handlerOp k) s) := by
  rw [svcWith_of_chosen h, hopen]
  rfl

/-- Where there is no choice, SVC is exactly that operation. -/
theorem svcWith_of_no_choice (h : chosen P pick s = some k) (hclosed : choiceIsOpen P s = false) :
    svcWith P pick s = execWith P (handlerOp k) s := by
  rw [svcWith_of_chosen h, hclosed]
  cases execWith P (handlerOp k) s <;> rfl

theorem svcWith_of_timer_only (ht : timerServiceable P s = true) (ha : adcServiceable s = false) :
    svcWith P pick s = svctWith P s :=
  svcWith_of_no_choice (k := .timer) (by simp [chosen, ht, ha]) (by simp [choiceIsOpen, ha])

theorem svcWith_of_adc_only (ht : timerServiceable P s = false) (ha : adcServiceable s = true) :
    svcWith P pick s = svcaWith P s :=
  svcWith_of_no_choice (k := .adc) (by simp [chosen, ht, ha]) (by simp [choiceIsOpen, ht])

theorem svcWith_of_nothing_serviceable (ht : timerServiceable P s = false) (ha : adcServiceable s = false) :
    svcWith P pick s = .refused (.notEnabled s.line .nothingServiceable) := by
  simp [svcWith, chosen, ht, ha]

/-! ### After the service of one of two waiting sources -/

/-- The conversion-complete source waits on, alone, and the next SVC takes it. -/
theorem adc_waits_on (ht : timerServiceable P s = true) (ha : adcServiceable s = true)
    (h : svcWith P pick s = .next t) (hk : chosen P pick s = some .timer) :
    adcServiceable t = true ∧ ∀ p, svcWith P p t = svcaWith P t := by
  obtain ⟨-, rfl⟩ | ⟨hk', -⟩ := svcWith_eq_next.mp h
  · have hadc := (adcServiceable_serviceTimer ht).trans ha
    have htimer := timerServiceable_serviceTimer ht
    exact ⟨by simpa using hadc, fun p => svcWith_of_adc_only (by simpa using htimer) (by simpa using hadc)⟩
  · exact nomatch hk.symm.trans hk'

/-- The period-elapsed source waits on, alone, and the next SVC takes it. -/
theorem timer_waits_on (ht : timerServiceable P s = true) (h : svcWith P pick s = .next t)
    (hk : chosen P pick s = some .adc) :
    timerServiceable P t = true ∧ ∀ p, svcWith P p t = svctWith P t := by
  obtain ⟨hk', -⟩ | ⟨-, rfl⟩ := svcWith_eq_next.mp h
  · exact nomatch hk.symm.trans hk'
  · obtain ⟨hif, hie, -⟩ := timerServiceable_iff.mp ht
    have htimer := (timerServiceable_servedAdc (P := P)).mpr ⟨hif, hie⟩
    have hadc := adcServiceable_servedAdc (s := s)
    exact ⟨by simpa using htimer, fun p => svcWith_of_timer_only (by simpa using htimer) (by simpa using hadc)⟩

/-! ### The two orders (R107) -/

/-- In a coupled state a completed conversion keeps PHASE in Converting, with nothing in flight (R26). -/
theorem SchedulerCoupled.of_adcIf (h : SchedulerCoupled s) (hif : s.adcIf = true) :
    s.phase = .converting ∧ s.convBusy = false := by
  obtain ⟨hexcl, hphase⟩ := h
  exact ⟨hphase.mpr (.inr hif), Bool.eq_false_of_not_eq_true fun hbusy => hexcl ⟨hbusy, hif⟩⟩

/-- With the conversion-complete service first, the period-elapsed one finds Idle and starts a new conversion. -/
theorem serviceTimer_servedAdc_outcome {u : State} (hu : u = serviceTimer P (servedAdc s)) :
    u.phase = .converting ∧ u.convBusy = true ∧ (u.dirOut, u.duty) = map s.adres ∧
      u.history = s.history ++ [.apply u.dirOut u.duty, .adcStart] := by
  rw [serviceTimer_idle rfl] at hu
  subst hu
  exact ⟨rfl, rfl, rfl, List.append_assoc ..⟩

end Sys2Proof.Machine

namespace Sys2Proof.Proofs
open Sys2Proof.Machine

/-- Settles O15: the choice of the arbiter settles each clause, SVC being the operation of the service chosen. -/
theorem svcTakesExactlyOneService : Obligations.SvcTakesExactlyOneService := by
  refine fun P pick s => ⟨svcWith_of_timer_only, svcWith_of_adc_only, fun ht ha => ⟨fun ho => ?_, fun ho => ?_, fun ho => ?_,
    fun ho => ?_, fun t h => ⟨adc_waits_on ht ha h, timer_waits_on ht h⟩⟩, svcWith_of_nothing_serviceable,
    exists_next_iff_exists_chosen (k := .timer), exists_next_iff_exists_chosen (k := .adc)⟩
  · exact svcWith_of_no_choice (k := .timer) (by simp [chosen, ht, ha, ho]) (by simp [choiceIsOpen, ho])
  · exact svcWith_of_no_choice (k := .adc) (by simp [chosen, ht, ha, ho]) (by simp [choiceIsOpen, ho])
  · exact svcWith_of_open_choice (k := .timer) (by simp [chosen, ht, ha, ho]) (by simp [choiceIsOpen, ht, ha, ho])
  · exact svcWith_of_open_choice (k := .adc) (by simp [chosen, ht, ha, ho]) (by simp [choiceIsOpen, ht, ha, ho])

/-- Settles O46: the coupling puts PHASE in Converting with nothing in flight. Under Drop the two orders are carried out; under
Defer only the conversion-complete source is serviceable, and after its service only the other one. -/
theorem serviceOrderIsObservable : Obligations.ServiceOrderIsObservable := by
  constructor
  · intro s hcoupled ht ha
    obtain ⟨hif, hie, -⟩ := timerServiceable_iff.mp ht
    obtain ⟨hphase, hbusy⟩ := hcoupled.of_adcIf (adcServiceable_iff.mp ha).1
    have heither : Config.params.order = .either := rfl
    have hsvct : exec .svct s = .next (s.setTmrIf false) := svctWith_dropped hif hie hphase (by simp [heither]) rfl
    have hthenSvca : exec .svca (s.setTmrIf false) = .next (servedAdc (s.setTmrIf false)) :=
      svcaWith_eq_next.mpr ⟨⟨ha, by simp [heither]⟩, rfl⟩
    have hsvca : exec .svca s = .next (servedAdc s) := svcaWith_eq_next.mpr ⟨⟨ha, by simp [heither]⟩, rfl⟩
    have hthenSvct : exec .svct (servedAdc s) = .next (serviceTimer Config.params (servedAdc s)) :=
      svctWith_eq_next.mpr ⟨⟨timerServiceable_servedAdc.mpr ⟨hif, hie⟩, by simp [heither]⟩, rfl⟩
    exact ⟨hphase, ⟨_, _, hsvct, hthenSvca, rfl, hbusy, rfl, rfl⟩,
      ⟨_, _, hsvca, hthenSvct, serviceTimer_servedAdc_outcome rfl⟩⟩
  · intro P pick s hdefer hcoupled htif htie haif haie
    obtain ⟨hphase, -⟩ := hcoupled.of_adcIf haif
    have hdeferred : timerServiceable P s = false := by simp [timerServiceable, hdefer, hphase]
    have ha : adcServiceable s = true := adcServiceable_iff.mpr ⟨haif, haie⟩
    have ht : timerServiceable P (servedAdc s) = true := timerServiceable_servedAdc.mpr ⟨htif, htie⟩
    have hfirst : svcWith P pick s = .next (servedAdc s) :=
      (svcWith_of_adc_only hdeferred ha).trans (svcaWith_eq_next.mpr ⟨⟨ha, by simp [hdeferred]⟩, rfl⟩)
    have hsecond : svcWith P pick (servedAdc s) = .next (serviceTimer P (servedAdc s)) :=
      (svcWith_of_timer_only ht adcServiceable_servedAdc).trans
        (svctWith_eq_next.mpr ⟨⟨ht, by simp [adcServiceable_servedAdc]⟩, rfl⟩)
    exact ⟨_, _, hfirst, hsecond, serviceTimer_servedAdc_outcome rfl⟩

end Sys2Proof.Proofs
end

