-- ==== Sys2Proof/Proofs/Boot.lean ====
section
/-! SUPPORT. RESET, ARM and coalesced periods (spec/70_reset_and_hazards.md R120, R122, R126): what RESET and ARM write and leave, how
a step treats the two enables, and the period's flag along a run that does not service it. -/
namespace Sys2Proof.Machine
variable {P : Params} {i : Instr} {s t : State} {ops : List Instr}

/-! ### RESET (R120) -/

theorem Reg.mem_all (r : Reg) : r ∈ Reg.all := by cases r <;> decide

/-- RESET puts every register but ADRES at its value in the state after reset, whatever the state before. -/
theorem get_of_execReset {r : Reg} (h : execReset s = .next t) (hr : r ≠ .adres) : r.get t = r.get State.reset := by
  cases h
  cases r <;> trivial

theorem effect_of_execReset (h : execReset s = .next t) : Effect Reg.all [] 1 s t := by
  cases h
  exact ⟨fun r hr => absurd r.mem_all hr, (List.append_nil _).symm, rfl, rfl, rfl⟩

/-- Straight after a RESET, another one finds every register but ADRES at its reset value already. -/
theorem effect_of_execReset_twice {u : State} (h : execReset s = .next t) (h' : execReset t = .next u) :
    Effect [.adres] [] 1 t u :=
  { effect_of_execReset h' with
    registers := fun _ hr =>
      have hne := mt List.mem_singleton.mpr hr
      (get_of_execReset h' hne).trans (get_of_execReset h hne).symm }

/-! ### ARM and the enables (R122) -/

theorem setEnables_eq_put (b : Bool) : s.setEnables b = Reg.adcIe.put b.toNat (Reg.tmrIe.put b.toNat s) := by
  cases b <;> rfl

theorem effect_setEnables (b : Bool) : Effect [.tmrIe, .adcIe] [] 0 s (s.setEnables b) :=
  setEnables_eq_put b ▸ (effect_put .tmrIe b.toNat).trans (effect_put .adcIe b.toNat)

theorem setEnables_eq_self {b : Bool} (ht : s.tmrIe = b) (ha : s.adcIe = b) : s.setEnables b = s := by
  cases s
  cases ht
  cases ha
  rfl

@[simp] theorem countDraw_tmrIe (c : Bool) : (countDraw c s).tmrIe = s.tmrIe := by cases c <;> rfl
@[simp] theorem countDraw_adcIe (c : Bool) : (countDraw c s).adcIe = s.adcIe := by cases c <;> rfl

theorem serviceTimer_tmrIe (h : timerServiceable P s = true) : (serviceTimer P s).tmrIe = s.tmrIe := by
  obtain ⟨-, ht⟩ | ⟨-, -, ht⟩ | ⟨-, -, ht⟩ := serviceTimer_cases h <;> rw [ht] <;> rfl

/-- A step writes the enables both or neither: ARM and RESET give them one value, every other operation leaves them. -/
theorem enables_of_execWith (h : execWith P i s = .next t) :
    (i = .arm ∧ t.tmrIe = true ∧ t.adcIe = true) ∨ (i = .reset ∧ t.tmrIe = false ∧ t.adcIe = false) ∨
      (t.tmrIe = s.tmrIe ∧ t.adcIe = s.adcIe) := by
  cases move_of_execWith h with
  | arm hi ht => exact .inl ⟨hi, by simp [ht]⟩
  | reset hi ht => cases ht; exact .inr (.inl ⟨hi, rfl, rfl⟩)
  | timer _ hs c ht => exact .inr (.inr (by simp [ht, serviceTimer_tmrIe hs, serviceTimer_adcIf_adcIe hs]))
  | adc _ _ c ht => exact .inr (.inr (by simp [ht, servedAdc]))
  | idle _ ht | tick _ ht | done _ _ _ ht | pwmck _ ht => exact .inr (.inr (by simp [ht]))

theorem enabledTogether_of_execWith (hs : EnabledTogether s) (h : execWith P i s = .next t) : EnabledTogether t := by
  obtain ⟨-, ht, ha⟩ | ⟨-, ht, ha⟩ | ⟨ht, ha⟩ := enables_of_execWith h
  · exact ht.trans ha.symm
  · exact ht.trans ha.symm
  · exact ht.trans (hs.trans ha.symm)

/-! ### A period that waits (R126) -/

/-- Only its own service and RESET take a waiting period away. -/
theorem tmrIf_of_execWith (h : execWith P i s = .next t) (hs : s.tmrIf = true) (hk : serviceOf P i s ≠ some .timer)
    (hi : i ≠ .reset) : t.tmrIf = true := by
  by_contra ht
  obtain hk' | hi' := (tmrIf_flagStep h).cleared_of_fall hs (Bool.eq_false_of_not_eq_true ht)
  · exact hk hk'
  · exact hi hi'

/-- It waits through every run that neither services it nor resets. -/
theorem tmrIf_of_runOps (hk : TakesNone P .timer ops s) (hr : Instr.reset ∉ ops) (h : runOps P ops s = .next t)
    (hs : s.tmrIf = true) : t.tmrIf = true := by
  induction ops generalizing s with
  | nil => cases h; exact hs
  | cons i is ih =>
    obtain ⟨u, hstep, hrun⟩ := onNext_eq_next.mp h
    obtain ⟨hki, hkis⟩ := hk
    obtain ⟨hi, his⟩ := List.ne_and_not_mem_of_not_mem_cons hr
    have hu : u.tmrIf = true := tmrIf_of_execWith hstep hs hki hi.symm
    exact ih (hkis u hstep) his hrun hu

theorem svctWith_of_tmrIf_clear (h : s.tmrIf = false) : svctWith P s = .refused (.notEnabled s.line .tmrIfClear) := by
  simp [svctWith, svctBlocked, h, guarded]

/-- One service takes the one pending event: straight after it the flag is 0 and another is refused. -/
theorem svctWith_twice_refused (h : svctWith P s = .next t) : svctWith P t = .refused (.notEnabled t.line .tmrIfClear) := by
  obtain ⟨⟨hs, -⟩, rfl⟩ := svctWith_eq_next.mp h
  exact svctWith_of_tmrIf_clear (serviceTimer_tmrIf hs)

end Sys2Proof.Machine

namespace Sys2Proof.Proofs
open Sys2Proof.Machine

/-- Settles O47: the flag that the first TICK sets is still set at the second, by induction over the run between; one SVCT
clears it. -/
theorem coalescedPeriodsAreServicedOnce : Obligations.CoalescedPeriodsAreServicedOnce := by
  intro ops s a m htick hnone hreset hrun
  have ha : a.tmrIf = true := by cases htick; rfl
  have hm : m.tmrIf = true := tmrIf_of_runOps hnone hreset hrun ha
  exact ⟨congrArg Host.Outcome.next (setTmrIf_eq_self hm), fun _ => svctWith_twice_refused⟩

/-- Settles O17: ARM is the one write of both enables, and a step that writes one enable writes the other with it. -/
theorem armEnablesBothSources : Obligations.ArmEnablesBothSources := by
  refine ⟨fun P i s t => enabledTogether_of_execWith, fun s => ?_⟩
  have horder : ¬ (Config.params.order = .adcFirst ∧ adcServiceable (s.setEnables true) = true) := fun ⟨h, _⟩ => nomatch h
  exact ⟨s.setEnables true, rfl, rfl, rfl, effect_setEnables true, setEnables_eq_self,
    fun hif => ⟨_, svctWith_of_not_defer hif rfl horder nofun⟩⟩

/-- Settles O19: RESET is the write of every register and one draw; a second one writes the same values but for ADRES. -/
theorem resetPutsResetValues : Obligations.ResetPutsResetValues :=
  fun _ => ⟨_, rfl, rfl, rfl, rfl, rfl, rfl, rfl, rfl, rfl, rfl, effect_of_execReset rfl,
    fun v => execDone_of_not_busy v rfl, _, rfl, effect_of_execReset_twice rfl rfl⟩

end Sys2Proof.Proofs
end

