-- ==== Sys2Proof/Proofs/Frames.lean ====
section
/-! SUPPORT. What a step writes, appends and leaves (spec/10_state.md R19, R22; spec/41_scheduler.md R77, R78): the frame of every
operation, narrowed to the service it takes, with the events it adds; and from it PHASE, CONV_BUSY and the agents. -/
namespace Sys2Proof.Machine
variable {P : Params} {i : Instr} {s t : State} {k : Service}

/-! ### Frames of the two services -/

theorem Effect.mono {w w' : List Reg} {es : List Event} {d : Nat} (h : Effect w es d s t) (hw : w ⊆ w') : Effect w' es d s t :=
  { h with registers := fun r hr => h.registers r (mt (@hw r) hr) }

theorem effect_refl : Effect [] [] 0 s s := ⟨fun _ _ => rfl, (List.append_nil _).symm, rfl, rfl, rfl⟩

theorem setPhase_eq_put (p : Phase) : s.setPhase p = Reg.phase.put p.bit.toNat s := by
  cases p <;> rfl

theorem effect_setPhase (p : Phase) : Effect [.phase] [] 0 s (s.setPhase p) :=
  setPhase_eq_put p ▸ effect_put .phase p.bit.toNat

/-- Counting a draw changes the counter alone (log 3). -/
theorem Effect.countDraw {w : List Reg} {es : List Event} {d : Nat} (h : Effect w es d s t) (c : Bool) :
    ∃ d', Effect w es d' s (countDraw c t) := by
  cases c with
  | false => exact ⟨d, h⟩
  | true =>
    exact ⟨d + 1, fun r hr => (by cases r <;> rfl : r.get t.nextDraw = r.get t).trans (h.registers r hr), h.history,
      congrArg (· + 1) h.draws, h.trace, h.line⟩

theorem effect_servedAdc : Effect [.adcIf, .dirOut, .duty, .phase] [.apply (map s.adres).1 (map s.adres).2] 0 s (servedAdc s) :=
  (((effect_setAdcIf false).trans effect_setOutputs).trans (effect_emit _)).trans (effect_setPhase .idle)

/-- Where a period-elapsed service issues a start request: in Idle, and under Restart in either phase (R73, R74). -/
abbrev Starts (P : Params) (s : State) : Prop := s.phase = .idle ∨ P.policy = .restart

/-- The events of a period-elapsed service. -/
def startEvents (P : Params) (s : State) : List Event := if Starts P s then [.adcStart] else []

theorem startEvents_of_starts (h : Starts P s) : startEvents P s = [.adcStart] := if_pos h

theorem startEvents_of_not_starts (h : ¬ Starts P s) : startEvents P s = [] := if_neg h

theorem effect_serviceTimer (h : timerServiceable P s = true) :
    Effect [.phase, .tmrIf, .convBusy] (startEvents P s) 0 s (serviceTimer P s) := by
  obtain ⟨hs, ht⟩ | ⟨hs, hp, ht⟩ | ⟨hs, hp, ht⟩ := serviceTimer_cases h <;> rw [ht]
  · rw [startEvents_of_starts (.inl hs)]
    exact (((effect_setTmrIf false).trans effect_requestConversion).trans (effect_setPhase .converting)).mono (by decide)
  · rw [startEvents_of_not_starts (by simp [Starts, hs, hp])]
    exact (effect_setTmrIf false).mono (by decide)
  · rw [startEvents_of_starts (.inr hp)]
    exact ((effect_setTmrIf false).trans effect_requestConversion).mono (by decide)

/-! ### The frame of every operation -/

/-- The registers a step writes: those of the service it takes, if it takes one. -/
def writesOf (P : Params) (i : Instr) (s : State) : List Reg :=
  match serviceOf P i s with
  | none => mayWrite i
  | some k => mayWrite (handlerOp k)

/-- The events a step appends. -/
def gained (P : Params) (i : Instr) (s : State) : List Event :=
  match serviceOf P i s with
  | none => []
  | some .timer => startEvents P s
  | some .adc => [.apply (map s.adres).1 (map s.adres).2]

theorem gained_of_no_service (h : serviceOf P i s = none) : gained P i s = [] := by simp only [gained, h]

theorem gained_of_timer (h : serviceOf P i s = some .timer) : gained P i s = startEvents P s := by simp only [gained, h]

theorem gained_of_adc (h : serviceOf P i s = some .adc) : gained P i s = [.apply (map s.adres).1 (map s.adres).2] := by
  simp only [gained, h]

theorem effect_of_execWith (h : execWith P i s = .next t) : ∃ d, Effect (writesOf P i s) (gained P i s) d s t := by
  cases move_of_execWith h with
  | timer hi hs c ht =>
    subst ht
    simp only [writesOf, gained, hi]
    exact ((effect_serviceTimer hs).mono (by decide)).countDraw c
  | adc hi _ c ht =>
    subst ht
    simp only [writesOf, gained, hi]
    exact (effect_servedAdc.mono (by decide)).countDraw c
  | reset hi ht => subst hi; exact ⟨1, effect_of_execReset ht⟩
  | idle hi ht => subst hi ht; exact ⟨0, effect_refl⟩
  | tick hi ht => subst hi ht; exact ⟨0, effect_setTmrIf true⟩
  | done v hi _ ht =>
    subst hi ht
    exact ⟨0, ((effect_setAdres v).trans (effect_setAdcIf true)).trans (effect_setConvBusy false)⟩
  | arm hi ht => subst hi ht; exact ⟨0, effect_setEnables true⟩
  | pwmck hi ht => subst hi ht; exact ⟨0, effect_setPwmcnt _⟩

theorem writesOf_subset_mayWrite : writesOf P i s ⊆ mayWrite i := by
  cases i with
  | svc =>
    rcases hk : serviceOf P .svc s with _ | _ | _ <;> simp only [writesOf, hk]
    · exact List.Subset.refl _
    · decide
    · decide
  | idle | tick | done | svct | svca | arm | pwmck | reset => exact List.Subset.refl _

theorem untouched_of_execWith (h : execWith P i s = .next t) : Untouched (mayWrite i) s t := by
  obtain ⟨d, heffect⟩ := effect_of_execWith h
  exact (heffect.mono writesOf_subset_mayWrite).registers

theorem history_of_execWith (h : execWith P i s = .next t) : t.history = s.history ++ gained P i s := by
  obtain ⟨d, heffect⟩ := effect_of_execWith h
  exact heffect.history

/-- No operation moves the line number; the advance of the trace does. -/
theorem line_of_execWith (h : execWith P i s = .next t) : t.line = s.line := by
  obtain ⟨d, heffect⟩ := effect_of_execWith h
  exact heffect.line

theorem trace_of_execWith (h : execWith P i s = .next t) : t.trace = s.trace := by
  obtain ⟨d, heffect⟩ := effect_of_execWith h
  exact heffect.trace

/-! ### The services of a step -/

theorem enabled_of_execWith (h : execWith P i s = .next t) : Enabled P i s := by
  by_contra hn
  obtain ⟨g, -, hrefused, -⟩ := execWith_of_not_enabled hn
  exact nomatch h.symm.trans hrefused

/-- A step only takes a service whose own operation is enabled (R105). -/
theorem enabled_of_takes (h : execWith P i s = .next t) (hk : serviceOf P i s = some k) : Enabled P (handlerOp k) s := by
  cases i with
  | svct | svca => cases hk; exact enabled_of_execWith h
  | svc => exact enabled_of_chosen hk
  | idle | tick | done | arm | pwmck | reset => cases hk

theorem timerServiceable_of_takes (h : execWith P i s = .next t) (hk : serviceOf P i s = some .timer) :
    timerServiceable P s = true := (enabled_of_takes h hk).1

theorem adcServiceable_of_takes (h : execWith P i s = .next t) (hk : serviceOf P i s = some .adc) :
    adcServiceable s = true := (enabled_of_takes h hk).1

/-- A step that takes no conversion-complete service and is no RESET leaves both outputs (R97). -/
theorem outputs_of_execWith (h : execWith P i s = .next t) (hi : i ≠ .reset) (hk : serviceOf P i s ≠ some .adc) :
    t.dirOut = s.dirOut ∧ t.duty = s.duty := by
  cases move_of_execWith h with
  | timer _ hs c ht =>
    have hregs := (effect_serviceTimer hs).registers
    simp only [ht, countDraw_dirOut, countDraw_duty]
    exact ⟨BitVec.eq_of_toNat_eq (hregs .dirOut (by decide)), BitVec.eq_of_toNat_eq (hregs .duty (by decide))⟩
  | adc hi' => exact absurd hi' hk
  | reset hi' => exact absurd hi' hi
  | idle _ ht | tick _ ht | done _ _ _ ht | arm _ ht | pwmck _ ht => subst ht; exact ⟨rfl, rfl⟩

/-! ### PHASE (R77) -/

@[simp] theorem countDraw_phase (c : Bool) : (countDraw c s).phase = s.phase := by cases c <;> rfl
@[simp] theorem countDraw_convBusy (c : Bool) : (countDraw c s).convBusy = s.convBusy := by cases c <;> rfl
@[simp] theorem countDraw_adres (c : Bool) : (countDraw c s).adres = s.adres := by cases c <;> rfl

theorem serviceTimer_phase (h : timerServiceable P s = true) : (serviceTimer P s).phase = .converting := by
  obtain ⟨-, ht⟩ | ⟨hs, -, ht⟩ | ⟨hs, -, ht⟩ := serviceTimer_cases h <;> rw [ht]
  · rfl
  · exact hs
  · exact hs

theorem phase_of_timer (h : execWith P i s = .next t) (hk : serviceOf P i s = some .timer) : t.phase = .converting := by
  obtain ⟨c, rfl⟩ := eq_of_takes_timer h hk
  rw [countDraw_phase, serviceTimer_phase (timerServiceable_of_takes h hk)]

theorem phase_of_adc (h : execWith P i s = .next t) (hk : serviceOf P i s = some .adc) : t.phase = .idle := by
  obtain ⟨c, rfl⟩ := eq_of_takes_adc h hk
  exact countDraw_phase c

theorem phase_of_no_service (h : execWith P i s = .next t) (hk : serviceOf P i s = none) (hi : i ≠ .reset) :
    t.phase = s.phase := by
  cases move_of_execWith h with
  | timer hi' | adc hi' => simp [hk] at hi'
  | reset hi' => exact absurd hi' hi
  | idle _ ht | tick _ ht | done _ _ _ ht | arm _ ht | pwmck _ ht => subst ht; rfl

/-- Under Defer there is no period-elapsed service in Converting. -/
theorem svctWith_ne_next_of_deferred (hs : s.phase = .converting) (hp : P.policy = .defer) : svctWith P s ≠ .next t := by
  intro h
  obtain ⟨⟨hserviceable, -⟩, -⟩ := svctWith_eq_next.mp h
  obtain ⟨-, -, hidle⟩ := timerServiceable_iff.mp hserviceable
  exact nomatch hs.symm.trans (hidle hp)

/-- The start pulse is the one event of a period-elapsed service that issues a request. -/
theorem adcStartPulse_iff (h : execWith P i s = .next t) :
    adcStartPulse s t = true ↔ serviceOf P i s = some .timer ∧ Starts P s := by
  rw [adcStartPulse, history_of_execWith h, List.drop_left]
  rcases hk : serviceOf P i s with _ | _ | _
  · simp [gained_of_no_service hk]
  · by_cases hs : Starts P s
    · simp [gained_of_timer hk, startEvents_of_starts hs, hs]
    · simp [gained_of_timer hk, startEvents_of_not_starts hs, hs]
  · simp [gained_of_adc hk]

/-! ### CONV_BUSY (R19, R78) -/

/-- A start request leaves a conversion in flight; without one the period-elapsed service leaves CONV_BUSY. -/
theorem serviceTimer_convBusy (h : timerServiceable P s = true) :
    (Starts P s → (serviceTimer P s).convBusy = true) ∧ (¬ Starts P s → (serviceTimer P s).convBusy = s.convBusy) := by
  obtain ⟨hs, ht⟩ | ⟨hs, hp, ht⟩ | ⟨hs, hp, ht⟩ := serviceTimer_cases h <;> rw [ht]
  · exact ⟨fun _ => rfl, fun hn => absurd (.inl hs) hn⟩
  · exact ⟨fun hstart => by simp [Starts, hs, hp] at hstart, fun _ => rfl⟩
  · exact ⟨fun _ => rfl, fun hn => absurd (.inr hp) hn⟩

/-- CONV_BUSY follows the pattern of a flag: a start request is its event, DONE and RESET end the conversion. -/
theorem convBusy_flagStep (h : execWith P i s = .next t) :
    FlagStep (adcStartPulse s t = true) ((∃ v, i = .done v) ∨ i = .reset) s.convBusy t.convBusy := by
  rw [adcStartPulse_iff h]
  cases move_of_execWith h with
  | timer hi hs c ht =>
    obtain ⟨hstart, hkeep⟩ := serviceTimer_convBusy hs
    subst ht
    refine ⟨fun ⟨_, hst⟩ => (countDraw_convBusy c).trans (hstart hst), ?_,
      fun hn _ => (countDraw_convBusy c).trans (hkeep fun hst => hn ⟨hi, hst⟩)⟩
    rintro (⟨v, rfl⟩ | rfl) <;> cases hi
  | adc hi _ c ht =>
    subst ht
    refine ⟨fun ⟨hk, _⟩ => (nomatch hi.symm.trans hk), ?_, fun _ _ => countDraw_convBusy c⟩
    rintro (⟨v, rfl⟩ | rfl) <;> cases hi
  | done v hi _ ht => subst hi ht; exact ⟨by simp [serviceOf], fun _ => rfl, by simp⟩
  | reset hi ht => subst hi; cases ht; exact ⟨by simp [serviceOf], fun _ => rfl, by simp⟩
  | idle hi ht | tick hi ht | arm hi ht | pwmck hi ht =>
    subst hi ht
    exact ⟨by simp [serviceOf], by simp, fun _ _ => rfl⟩

/-! ### Agents (R6, R36) -/

/-- The registers of each agent (R36). -/
def agentWrites : Agent → List Reg
  | .handler => [.dirOut, .duty, .phase, .tmrIf, .adcIf, .convBusy]
  | .background => []
  | .timer => [.tmrIf]
  | .converter => [.adres, .adcIf, .convBusy]
  | .configurator => [.tmrIe, .adcIe]
  | .pwmTimebase => [.pwmcnt]
  | .resetSource => Reg.all

theorem mayWrite_subset_agentWrites (i : Instr) : mayWrite i ⊆ agentWrites (agentOf i) := by
  cases i <;> simp [mayWrite, agentWrites, agentOf]

theorem untouched_of_agent {a : Agent} (h : execWith P i s = .next t) (ha : agentOf i = a) :
    Untouched (agentWrites a) s t :=
  fun r hr => untouched_of_execWith h r fun hmem => hr (ha ▸ mayWrite_subset_agentWrites i hmem)

theorem eq_idle_of_background (h : agentOf i = .background) : i = .idle := by
  cases i <;> trivial

/-- Only the Handler takes a service. -/
theorem serviceOf_eq_none_of_agent (h : agentOf i ≠ .handler) : serviceOf P i s = none := by
  cases i <;> trivial

end Sys2Proof.Machine

namespace Sys2Proof.Proofs
open Sys2Proof.Machine

/-- Settles O23: the outputs are written by the conversion-complete service and RESET, and by no other move. -/
theorem outputsHoldBetweenApplies : Obligations.OutputsHoldBetweenApplies := fun _ _ _ _ => outputs_of_execWith

/-- Settles O25: PHASE by the service taken, and the start pulse as the event of that service. -/
theorem phaseFollowsTransitionTable : Obligations.PhaseFollowsTransitionTable := by
  refine fun P i s => ⟨fun hs hp t => svctWith_ne_next_of_deferred hs hp, fun t h => ?_⟩
  refine ⟨phase_of_timer h, phase_of_adc h, ?_, phase_of_no_service h, adcStartPulse_iff h⟩
  rintro rfl
  cases h
  rfl

/-- Settles O26: CONV_BUSY follows the pattern of a flag, and DONE is guarded by it. -/
theorem conversionInFlightFollowsContract : Obligations.ConversionInFlightFollowsContract := by
  intro P i s t h
  have hbusy := convBusy_flagStep h
  refine ⟨hbusy.event_of_rise, hbusy.set, hbusy.cleared_of_fall, fun v hv => ⟨?_, hbusy.clear (.inl ⟨v, hv⟩)⟩⟩
  subst hv
  exact enabled_of_execWith h

/-- Settles O27: what an operation may write lies within its agent's registers, and only the Handler takes services. -/
theorem agentsWriteOnlyTheirRegisters : Obligations.AgentsWriteOnlyTheirRegisters := by
  refine ⟨fun P i s t h => ⟨fun ha => ?_, untouched_of_agent h, untouched_of_agent h, untouched_of_agent h,
    untouched_of_agent h, untouched_of_agent h, fun ha => history_of_no_service h (serviceOf_eq_none_of_agent ha)⟩,
    fun ev => by cases ev <;> rfl⟩
  cases eq_idle_of_background ha
  cases h
  rfl

/-- Settles O48: without a serviceable source and a conversion in flight the moves of the Handler and the Converter are gone. -/
theorem quiescentWaitsForEnvironment : Obligations.QuiescentWaitsForEnvironment := by
  rintro P i s t ⟨htimer, hadc, hbusy⟩ h
  cases move_of_execWith h with
  | idle hi ht => exact .inl ⟨hi, ht⟩
  | tick hi => exact .inr (.inl hi)
  | arm hi => exact .inr (.inr (.inl hi))
  | pwmck hi => exact .inr (.inr (.inr (.inl hi)))
  | reset hi => exact .inr (.inr (.inr (.inr hi)))
  | done _ _ hb => exact nomatch hbusy.symm.trans hb
  | timer _ hs => exact nomatch htimer.symm.trans hs
  | adc _ hs => exact nomatch hadc.symm.trans hs

end Sys2Proof.Proofs
end

