-- ==== Sys2Proof/Proofs/Services.lean ====
section
/-! SUPPORT. SVCT in Idle, SVCA and SVC as single operations (spec/41_scheduler.md R73, R75; spec/60_exceptions.md R105), and APPLY
outside its contract (spec/42_output.md R92): the outcome of each where its guard holds, and the refusals by name. -/
namespace Sys2Proof.Machine
variable {P : Params} {i : Instr} {s : State} {d : DirField} {m : Duty}

/-! ### SVCT in Idle (R73) -/

/-- In Idle the period-elapsed service starts a conversion under every policy. -/
theorem svctWith_of_idle (hif : s.tmrIf = true) (hie : s.tmrIe = true) (hphase : s.phase = .idle)
    (horder : ¬ (P.order = .adcFirst ∧ adcServiceable s = true)) :
    svctWith P s = .next ((s.setTmrIf false).requestConversion.setPhase .converting) :=
  svctWith_eq_next.mpr ⟨⟨timerServiceable_iff.mpr ⟨hif, hie, fun _ => hphase⟩, horder⟩, (serviceTimer_idle hphase).symm⟩

theorem effect_start : Effect [.tmrIf, .convBusy, .phase] [.adcStart] 0 s
    ((s.setTmrIf false).requestConversion.setPhase .converting) :=
  ((effect_setTmrIf false).trans effect_requestConversion).trans (effect_setPhase .converting)

theorem svctWith_of_tmrIe_clear (hif : s.tmrIf = true) (hie : s.tmrIe = false) :
    svctWith P s = .refused (.notEnabled s.line .tmrIeClear) := by
  simp [svctWith, svctBlocked, hif, hie, guarded]

/-! ### SVCA (R75) -/

theorem svcaWith_of_serviceable (hif : s.adcIf = true) (hie : s.adcIe = true)
    (horder : ¬ (P.order = .timerFirst ∧ timerServiceable P s = true)) : svcaWith P s = .next (servedAdc s) :=
  svcaWith_eq_next.mpr ⟨⟨adcServiceable_iff.mpr ⟨hif, hie⟩, horder⟩, rfl⟩

theorem svcaWith_of_adcIf_clear (h : s.adcIf = false) : svcaWith P s = .refused (.notEnabled s.line .adcIfClear) := by
  simp [svcaWith, svcaBlocked, h, guarded]

theorem svcaWith_of_adcIe_clear (hif : s.adcIf = true) (hie : s.adcIe = false) :
    svcaWith P s = .refused (.notEnabled s.line .adcIeClear) := by
  simp [svcaWith, svcaBlocked, hif, hie, guarded]

theorem not_timerServiceable_of_tmrIf_clear (h : s.tmrIf = false) : ¬ timerServiceable P s = true := by
  simp [timerServiceable, h]

theorem not_adcServiceable_of_adcIf_clear (h : s.adcIf = false) : ¬ adcServiceable s = true := by
  simp [adcServiceable, h]

/-! ### SVC of the block (R105) -/

theorem params_order_ne_adcFirst : Config.params.order ≠ .adcFirst := by decide

theorem params_order_ne_timerFirst : Config.params.order ≠ .timerFirst := by decide

theorem exec_svct_of_flags (hif : s.tmrIf = true) (hie : s.tmrIe = true) :
    exec .svct s = .next (serviceTimer Config.params s) :=
  svctWith_of_not_defer hif hie (fun h => params_order_ne_adcFirst h.1) (by decide)

theorem exec_svca_of_flags (hif : s.adcIf = true) (hie : s.adcIe = true) : exec .svca s = .next (servedAdc s) :=
  svcaWith_of_serviceable hif hie fun h => params_order_ne_timerFirst h.1

theorem timerServiceable_params : timerServiceable Config.params s = (s.tmrIf && s.tmrIe) := by
  simp [timerServiceable, Config.params]

/-- With both sources waiting, SVC of the block is the drawn service, at the cost of the draw (log 3). -/
theorem exec_svc_of_both (ht : timerServiceable Config.params s = true) (ha : adcServiceable s = true) :
    exec .svc s = mapNext State.nextDraw (execWith Config.params (handlerOp (Config.arbiterPicks s.draws)) s) := by
  have heither : Config.params.order = .either := rfl
  refine svcWith_of_open_choice ?_ ?_
  · simp [chosen, ht, ha, heither]
  · simp [choiceIsOpen, ht, ha, heither]

/-! ### APPLY outside its contract (R92) -/

theorem applyPair_of_illegal (h : d = 0b00 ∨ d = 0b11 ∨ m = 255 ∨ m.toNat % 2 = 1) :
    applyPair d m s = .refused (.applyArguments d m) := by
  refine if_neg fun hlegal => ?_
  obtain ⟨hd, heven, hle⟩ := applyLegal_iff.mp hlegal
  obtain rfl | rfl | rfl | hodd := h
  · simp at hd
  · simp at hd
  · simp at hle
  · omega

/-- A refusal of an operation names a guard, never the arguments of APPLY. -/
theorem execWith_ne_applyArguments : execWith P i s ≠ .refused (.applyArguments d m) := by
  intro h
  by_cases hi : Enabled P i s
  · obtain ⟨t, ht⟩ := execWith_of_enabled hi
    exact nomatch ht.symm.trans h
  · obtain ⟨g, -, hg, -⟩ := execWith_of_not_enabled hi
    exact nomatch hg.symm.trans h

end Sys2Proof.Machine

namespace Sys2Proof.Proofs
open Sys2Proof.Machine

/-- Settles O14: SVCA of the block is the service behind its two flags, with the frame of its writes. -/
theorem svcaAppliesMappedSample : Obligations.SvcaAppliesMappedSample := by
  refine fun s => ⟨fun hif hie => ?_, svcaWith_of_adcIf_clear, svcaWith_of_adcIe_clear⟩
  exact ⟨servedAdc s, exec_svca_of_flags hif hie, rfl, rfl, rfl, rfl, effect_servedAdc.mono (by decide)⟩

/-- Settles O16: one source alone leaves no choice; with both, the draw decides and either service completes. -/
theorem svcCompletesWhenServiceable : Obligations.SvcCompletesWhenServiceable := by
  refine fun s => ⟨fun hif hie ha => ?_, fun hif hie ht => ?_, fun htif htie haif haie => ?_⟩
  · have ht : timerServiceable Config.params s = true := by simp [timerServiceable_params, hif, hie]
    have hsvct := exec_svct_of_flags hif hie
    exact ⟨_, (svcWith_of_timer_only ht ha).trans hsvct, hsvct⟩
  · have ha : adcServiceable s = true := adcServiceable_iff.mpr ⟨hif, hie⟩
    have hsvca := exec_svca_of_flags hif hie
    exact ⟨_, (svcWith_of_adc_only ht ha).trans hsvca, hsvca⟩
  · have ht : timerServiceable Config.params s = true := by simp [timerServiceable_params, htif, htie]
    have hsvc := exec_svc_of_both ht (adcServiceable_iff.mpr ⟨haif, haie⟩)
    have hsvct := exec_svct_of_flags htif htie
    have hsvca := exec_svca_of_flags haif haie
    cases hpick : Config.arbiterPicks s.draws with
    | timer =>
      rw [hpick] at hsvc
      exact ⟨_, _, hsvc.trans (congrArg _ hsvct), .inl hsvct, rfl⟩
    | adc =>
      rw [hpick] at hsvc
      exact ⟨_, _, hsvc.trans (congrArg _ hsvca), .inr hsvca, rfl⟩

/-- Settles O12: the start of a conversion with its frame, for the block and for every parameter set. -/
theorem svctInIdleStartsConversion : Obligations.SvctInIdleStartsConversion := by
  refine ⟨fun s => ⟨fun hif hie hphase => ?_, svctWith_of_tmrIf_clear, svctWith_of_tmrIe_clear⟩,
    fun P s hif hie hphase horder => ⟨_, svctWith_of_idle hif hie hphase horder, rfl, rfl, rfl, effect_start⟩⟩
  exact ⟨_, svctWith_of_idle hif hie hphase (fun h => params_order_ne_adcFirst h.1), rfl, rfl, rfl, effect_start⟩

/-- Settles O20: each field of the reset state as it is defined (R24). -/
theorem resetStateHoldsSpecValues : Obligations.ResetStateHoldsSpecValues :=
  ⟨rfl, rfl, rfl, rfl, rfl, rfl, rfl, rfl, rfl, rfl⟩

/-- Settles O33: each illegal argument falls outside the contract, and the operations are refused by their guards alone. -/
theorem applyRefusesOutsideItsContract : Obligations.ApplyRefusesOutsideItsContract :=
  ⟨fun _ _ _ => applyPair_of_illegal, fun _ _ _ _ => execWith_ne_applyArguments⟩

end Sys2Proof.Proofs
end

