-- ==== Sys2Proof/Proofs/Steps.lean ====
section
/-! SUPPORT. Steps and traces (spec/30_encoding.md R45, R47, R49, R52; log 4): the round trip of the encoder, the block as the case
Drop, Either of the parametric operations, each operation's effect as a state, and a whole trace as the run of its operations. -/
namespace Sys2Proof
variable {w : EventWord} {i : Instr}

/-! ### Words and rows (R45, R52) -/

theorem decode_encode (i : Instr) : decode (encode i) = .operation i := decode_eq_operation_iff.mpr rfl

/-- Two rows that share a word agree on the bits that both of them fix. -/
theorem fixed_agree_of_hits {a b : OpRow} (ha : a.hits w = true) (hb : b.hits w = true) :
    a.fixed &&& b.mask = b.fixed &&& a.mask := by
  rw [OpRow.hits, beq_iff_eq] at ha hb
  rw [← ha, ← hb, BitVec.and_assoc, BitVec.and_assoc, BitVec.and_comm a.mask]

/-- An event word is its own number at every width that holds its 12 bits (log 13). -/
theorem tableWord_toNat (w : EventWord) : tableWord 16 w.toNat = w := by
  have hw := w.isLt
  rw [tableWord, Nat.mod_eq_of_lt (by omega), if_pos hw, BitVec.ofNat_toNat, BitVec.setWidth_eq]

theorem decodeTableWord_encode (i : Instr) : decodeTableWord 16 (encode i).toNat = some i := by
  rw [decodeTableWord, tableWord_toNat, decode_encode]

end Sys2Proof

namespace Sys2Proof.Machine
variable {P : Params} {i : Instr} {s t : State} {w : EventWord} {rest : List EventWord}

/-! ### The effect of an operation -/

/-- The block is the case Drop, Either of the parametric operations (R7, log 8). -/
theorem exec_eq_execWith (i : Instr) (s : State) : exec i s = execWith Config.params i s := by
  cases i <;> rfl

/-- The state after the service `k`. -/
def serviced (P : Params) : Service → State → State
  | .timer, s => serviceTimer P s
  | .adc, s => servedAdc s

theorem takeService_eq (k : Service) : takeService P k s = .next (serviced P k s) := by
  cases k with
  | timer => rfl
  | adc => exact serviceAdc_eq

/-- What each operation does where its guard holds; where the arbiter takes nothing, SVC does nothing. -/
def effectOf (P : Params) (i : Instr) (s : State) : State :=
  match i with
  | .idle => s
  | .tick => s.setTmrIf true
  | .done v => ((s.setAdres v).setAdcIf true).setConvBusy false
  | .svct => serviced P .timer s
  | .svca => serviced P .adc s
  | .svc => ((chosen P (Config.arbiterPicks s.draws) s).map fun k => countDraw (choiceIsOpen P s) (serviced P k s)).getD s
  | .arm => s.setEnables true
  | .pwmck => s.setPwmcnt ((s.pwmcnt + 1) % P.pwmPeriod)
  | .reset => ((((((((s.setAdres (Config.unspecifiedAdres s.draws)).setOutputs 0b00 0x00).setPhase .idle).setTmrIf false).setAdcIf
      false).setEnables false).setConvBusy false).setPwmcnt 0).nextDraw

/-- Every operation is its effect behind the conjunct of its guard that blocks it. -/
theorem execWith_eq (P : Params) (i : Instr) (s : State) :
    execWith P i s = guarded (blockedBy P i s) s (.next (effectOf P i s)) := by
  cases i with
  | svca => exact congrArg (guarded (svcaBlocked P s) s) (takeService_eq .adc)
  | svc =>
    have hblocked := chosen_eq_none_iff (P := P) (s := s) (pick := Config.arbiterPicks s.draws)
    cases hk : chosen P (Config.arbiterPicks s.draws) s with
    | none =>
      simp only [execWith, svcWith, hk, blockedBy, if_neg (hblocked.mp hk), guarded]
    | some k =>
      have hsome : (timerServiceable P s || adcServiceable s) = true :=
        by_contra fun hnone => nomatch hk.symm.trans (hblocked.mpr hnone)
      simp only [execWith, svcWith, hk, blockedBy, if_pos hsome, guarded, effectOf, takeService_eq, mapNext_of_next,
        Option.map_some, Option.getD_some]
  | idle | tick | done | svct | arm | pwmck | reset => rfl

/-- A change of state that an operation's guard and line do not see, and its effect carries along, goes through the operation. -/
theorem execWith_map {f : State → State} (hblocked : blockedBy P i (f s) = blockedBy P i s) (hline : (f s).line = s.line)
    (heffect : effectOf P i (f s) = f (effectOf P i s)) : execWith P i (f s) = mapNext f (execWith P i s) := by
  rw [execWith_eq, execWith_eq, hblocked, heffect]
  cases blockedBy P i s with
  | none => rfl
  | some g => exact congrArg (fun n => Host.Outcome.refused (Refusal.notEnabled n g)) hline

/-! ### The trace plays no part in an operation (log 4) -/

/-- The state with another trace. -/
def State.withTrace (ws : List EventWord) (s : State) : State := { s with trace := ws }

theorem serviced_withTrace (ws : List EventWord) (k : Service) :
    serviced P k (s.withTrace ws) = (serviced P k s).withTrace ws := by
  cases k with
  | adc => rfl
  | timer =>
    have hphase : (s.withTrace ws).phase = s.phase := rfl
    simp only [serviced, serviceTimer, hphase]
    cases s.phase <;> cases P.policy <;> rfl

theorem effectOf_withTrace (ws : List EventWord) : effectOf P i (s.withTrace ws) = (effectOf P i s).withTrace ws := by
  cases i with
  | svct => exact serviced_withTrace ws .timer
  | svca => rfl
  | svc =>
    have hchosen : chosen P (Config.arbiterPicks (s.withTrace ws).draws) (s.withTrace ws) =
      chosen P (Config.arbiterPicks s.draws) s := rfl
    have hopen : choiceIsOpen P (s.withTrace ws) = choiceIsOpen P s := rfl
    simp only [effectOf, hchosen, hopen, serviced_withTrace]
    cases chosen P (Config.arbiterPicks s.draws) s with
    | none => rfl
    | some k => cases choiceIsOpen P s <;> rfl
  | idle | tick | done | arm | pwmck | reset => rfl

theorem execWith_withTrace (ws : List EventWord) :
    execWith P i (s.withTrace ws) = mapNext (State.withTrace ws) (execWith P i s) :=
  execWith_map (f := State.withTrace ws) (by cases i <;> rfl) rfl (effectOf_withTrace ws)

/-! ### Steps (R5, R49) -/

/-- A step on a word that decodes is the operation, then the advance to the next line. -/
theorem step_of_decode (hs : s.trace = w :: rest) (hd : decode w = .operation i) :
    step s = mapNext (State.advance rest) (exec i s) := by
  unfold step
  simp [hs, hd]

/-- What a step that has a next state did. -/
theorem exec_of_step (h : step s = .next t) : ∃ i rest u, exec i s = .next u ∧ t = u.advance rest := by
  unfold step at h
  split at h
  · cases h
  · split at h
    · cases h
    · obtain ⟨u, hu, rfl⟩ := mapNext_eq_next.mp h
      exact ⟨_, _, u, hu, rfl⟩

theorem step_of_exec (hs : s.trace = w :: rest) (hd : decode w = .operation i) (h : exec i s = .next t) :
    step s = .next { t with trace := rest, line := s.line + 1 } := by
  have hline : t.line = s.line := line_of_execWith (exec_eq_execWith i s ▸ h)
  rw [step_of_decode hs hd, h, ← hline]
  rfl

/-! ### Runs line by line (R134; log 19) -/

/-- The state on its next line, between two operations of a run. -/
def State.nextLine (s : State) : State := { s with line := s.line + 1 }

@[simp] theorem nextLine_history : s.nextLine.history = s.history := rfl
@[simp] theorem nextLine_dirOut : s.nextLine.dirOut = s.dirOut := rfl
@[simp] theorem nextLine_duty : s.nextLine.duty = s.duty := rfl

theorem runOps_cons_eq_next {is : List Instr} :
    runOps P (i :: is) s = .next t ↔ ∃ u, execWith P i s = .next u ∧ runOps P is u.nextLine = .next t := onNext_eq_next

/-- A run whose first line has a next state goes on from there, on the next line. -/
theorem runOps_cons_next {is : List Instr} {u : State} (h : execWith P i s = .next u)
    (hrest : runOps P is u.nextLine = .next t) : runOps P (i :: is) s = .next t := runOps_cons_eq_next.mpr ⟨u, h, hrest⟩

/-! ### Whole traces (R47, R49, R134) -/

theorem firstInvalid_map_encode (is : List Instr) (n : Nat) : firstInvalid n (is.map encode) = none := by
  induction is generalizing n with
  | nil => rfl
  | cons i is ih => simp [firstInvalid, decode_encode, ih]

/-- As many steps as the loaded trace has lines are the run of its operations, and leave no trace. -/
theorem steps_of_encoded (is : List Instr) (s : State) : steps is.length (s.withTrace (is.map encode)) =
    mapNext (State.withTrace []) (runOps Config.params is s) := by
  induction is generalizing s with
  | nil => rfl
  | cons i is ih =>
    have hstep : step (s.withTrace ((i :: is).map encode)) = mapNext (State.advance (is.map encode))
        (mapNext (State.withTrace ((i :: is).map encode)) (execWith Config.params i s)) := by
      rw [step_of_decode rfl (decode_encode i), exec_eq_execWith, execWith_withTrace]
    simp only [List.length_cons, steps, hstep, runOps]
    cases execWith Config.params i s with
    | next u => exact ih { u with line := u.line + 1 }
    | fault r => rfl
    | refused r => rfl

theorem runTrace_of_encoded (is : List Instr) (s : State) : runTrace (is.map encode) s =
    mapNext (State.withTrace []) (runOps Config.params is { s with line := 1 }) := by
  have hload : loadTrace (is.map encode) s = .next (State.withTrace (is.map encode) { s with line := 1 }) := by
    rw [loadTrace, firstInvalid_map_encode]
    rfl
  rw [runTrace, hload, List.length_map]
  exact steps_of_encoded is _

end Sys2Proof.Machine

namespace Sys2Proof.Proofs
open Sys2Proof.Machine

/-- Settles O2: a word decodes to an operation exactly when it is its encoding; no two rows agree on the bits that both fix. -/
theorem decodeEncodeAgree : Obligations.DecodeEncodeAgree := by
  refine ⟨decode_encode, fun w i => decode_eq_operation_iff.mp, fun w => ?_, ?_⟩
  · cases decode w with
    | operation i => exact .inl ⟨i, rfl⟩
    | invalid why => exact .inr ⟨why, rfl⟩
  · have hdiffer : opcodeMap.Pairwise fun a b => a.fixed &&& b.mask ≠ b.fixed &&& a.mask := by decide
    exact hdiffer.imp fun hne w ⟨ha, hb⟩ => hne (fixed_agree_of_hits ha hb)

/-- Settles O7: the trace loads, no operation reads it, and by induction over it each step is one operation of the run. -/
theorem traceRunsItsOperations : Obligations.TraceRunsItsOperations := runTrace_of_encoded

/-- Settles O6: the number read back is the word placed, which the next step decodes and runs. -/
theorem fetchedWordIsRun : Obligations.FetchedWordIsRun :=
  fun i s => ⟨decodeTableWord_encode i, fun _ => step_of_exec rfl (by rw [tableWord_toNat, decode_encode])⟩

/-- Settles O1: each word is the encoding of its operation, or has the fields that R47 names. -/
theorem specWordsDecodeAsTabled : Obligations.SpecWordsDecodeAsTabled :=
  ⟨decode_encode .idle, decode_encode .tick, decode_encode (.done 0), decode_encode (.done 127), decode_encode (.done 128),
    decode_encode (.done 255), decode_encode .svct, decode_encode .svca, decode_encode .svc, decode_encode .arm,
    decode_encode .pwmck, decode_encode .reset, rfl, rfl, rfl, rfl, rfl⟩

/-- Settles O5: a step is the decoded operation, and a refusal of that goes through. -/
theorem stepRunsDecodedOperation : Obligations.StepRunsDecodedOperation :=
  fun s w rest i hs hd => ⟨fun t => step_of_exec hs hd, fun r h => by rw [step_of_decode hs hd, h, mapNext_of_refused]⟩

/-- Settles O8: the decided values stand in `Config.params`, each period one more than a constant. -/
theorem blockHasDecidedParameters : Obligations.BlockHasDecidedParameters :=
  ⟨rfl, rfl, Nat.succ_pos _, Nat.succ_pos _, exec_eq_execWith⟩

end Sys2Proof.Proofs
end

