-- ==== Sys2Proof/Proofs/Accesses.lean ====
section
/-! SUPPORT. What the operations read (spec/20_memory.md R31; spec/10_state.md R27): a register that an operation does not read changes
neither its guard nor its effect on the others; and an ADRES that no completed conversion stands behind is not read at all. -/
namespace Sys2Proof.Machine
variable {P : Params} {i : Instr} {s t : State} {r : Reg} {n : Nat}

/-! ### Fields that a replaced register leaves -/

theorem put_adres_of_ne (h : r ≠ .adres) : (r.put n s).adres = s.adres := by cases r <;> trivial
theorem put_phase_of_ne (h : r ≠ .phase) : (r.put n s).phase = s.phase := by cases r <;> trivial
theorem put_tmrIf_of_ne (h : r ≠ .tmrIf) : (r.put n s).tmrIf = s.tmrIf := by cases r <;> trivial
theorem put_tmrIe_of_ne (h : r ≠ .tmrIe) : (r.put n s).tmrIe = s.tmrIe := by cases r <;> trivial
theorem put_adcIf_of_ne (h : r ≠ .adcIf) : (r.put n s).adcIf = s.adcIf := by cases r <;> trivial
theorem put_adcIe_of_ne (h : r ≠ .adcIe) : (r.put n s).adcIe = s.adcIe := by cases r <;> trivial
theorem put_convBusy_of_ne (h : r ≠ .convBusy) : (r.put n s).convBusy = s.convBusy := by cases r <;> trivial
theorem put_pwmcnt_of_ne (h : r ≠ .pwmcnt) : (r.put n s).pwmcnt = s.pwmcnt := by cases r <;> trivial

/-! ### Guards of the block -/

/-- Under Drop and Either the guard of SVCT is its two flags. -/
theorem svctBlocked_params : svctBlocked Config.params s =
    if !s.tmrIf then some .tmrIfClear else if !s.tmrIe then some .tmrIeClear else none := by
  simp [svctBlocked, Config.params]

theorem svcaBlocked_params : svcaBlocked Config.params s =
    if !s.adcIf then some .adcIfClear else if !s.adcIe then some .adcIeClear else none := by
  simp [svcaBlocked, Config.params]

/-- What the arbiter's four bits are put at does not depend on the other registers. -/
theorem serviceable_put (h : r ∉ mayRead .svc) :
    timerServiceable Config.params (r.put n s) = timerServiceable Config.params s ∧
      adcServiceable (r.put n s) = adcServiceable s := by
  simp only [mayRead, List.mem_cons, List.not_mem_nil, or_false, not_or] at h
  obtain ⟨-, htif, htie, -, haif, haie⟩ := h
  rw [timerServiceable_params, timerServiceable_params, adcServiceable, put_tmrIf_of_ne htif, put_tmrIe_of_ne htie,
    put_adcIf_of_ne haif, put_adcIe_of_ne haie]
  exact ⟨rfl, rfl⟩

theorem chosen_put (h : r ∉ mayRead .svc) (pick : Service) :
    chosen Config.params pick (r.put n s) = chosen Config.params pick s := by
  obtain ⟨ht, ha⟩ := serviceable_put (n := n) (s := s) h
  rw [chosen, ht, ha, chosen]

theorem blockedBy_put (h : r ∉ mayRead i) : blockedBy Config.params i (r.put n s) = blockedBy Config.params i s := by
  cases i with
  | done v => simp only [blockedBy, doneBlocked, put_convBusy_of_ne (mt List.mem_singleton.mpr h)]
  | svct =>
    simp only [mayRead, List.mem_cons, List.not_mem_nil, or_false, not_or] at h
    obtain ⟨-, hif, hie⟩ := h
    simp only [blockedBy, svctBlocked_params, put_tmrIf_of_ne hif, put_tmrIe_of_ne hie]
  | svca =>
    simp only [mayRead, List.mem_cons, List.not_mem_nil, or_false, not_or] at h
    obtain ⟨-, hif, hie⟩ := h
    simp only [blockedBy, svcaBlocked_params, put_adcIf_of_ne hif, put_adcIe_of_ne hie]
  | svc =>
    obtain ⟨ht, ha⟩ := serviceable_put (n := n) (s := s) h
    simp only [blockedBy, ht, ha]
  | idle | tick | arm | pwmck | reset => rfl

/-! ### Effects of the block -/

theorem put_serviced {k : Service} (h : r ∉ mayRead (handlerOp k)) :
    r.put 0 (serviced Config.params k (r.put n s)) = r.put 0 (serviced Config.params k s) := by
  simp only [mayRead, handlerOp] at h
  cases k with
  | timer =>
    have hphase : (r.put n s).phase = s.phase := put_phase_of_ne fun hr => h (by simp [hr])
    simp only [serviced, serviceTimer, hphase]
    cases s.phase <;> cases r <;> rfl
  | adc =>
    have hadres : (r.put n s).adres = s.adres := put_adres_of_ne fun hr => h (by simp [hr])
    simp only [serviced, servedAdc, hadres]
    cases r <;> rfl

/-- SVC reads what either service reads. -/
theorem mayRead_handlerOp_subset (k : Service) : mayRead (handlerOp k) ⊆ mayRead .svc := by
  cases k <;> decide

theorem put_countDraw (c : Bool) : r.put n (countDraw c s) = countDraw c (r.put n s) := by
  cases c <;> cases r <;> rfl

theorem put_effectOf (h : r ∉ mayRead i) :
    r.put 0 (effectOf Config.params i (r.put n s)) = r.put 0 (effectOf Config.params i s) := by
  cases i with
  | svct => exact put_serviced (k := .timer) h
  | svca => exact put_serviced (k := .adc) h
  | svc =>
    obtain ⟨ht, ha⟩ := serviceable_put (n := n) (s := s) h
    have hopen : choiceIsOpen Config.params (r.put n s) = choiceIsOpen Config.params s := by
      rw [choiceIsOpen, ht, ha, choiceIsOpen]
    simp only [effectOf, State.put_draws, chosen_put h, hopen]
    cases chosen Config.params (Config.arbiterPicks s.draws) s with
    | none => cases r <;> rfl
    | some k =>
      simp only [Option.map_some, Option.getD_some, put_countDraw, put_serviced fun hr => h (mayRead_handlerOp_subset k hr)]
  | pwmck =>
    have hcnt : (r.put n s).pwmcnt = s.pwmcnt := put_pwmcnt_of_ne (mt List.mem_singleton.mpr h)
    simp only [effectOf, hcnt]
    cases r <;> rfl
  | idle | tick | done | arm | reset => cases r <;> rfl

/-- A register that an operation of the block does not read may hold anything: the outcome is the same but for that register. -/
theorem exec_put (h : r ∉ mayRead i) :
    mapNext (r.put 0) (exec i (r.put n s)) = mapNext (r.put 0) (exec i s) := by
  rw [exec_eq_execWith, exec_eq_execWith, execWith_eq, execWith_eq, blockedBy_put h]
  cases blockedBy Config.params i s with
  | none => exact congrArg Host.Outcome.next (put_effectOf h)
  | some g => exact congrArg (fun m => Host.Outcome.refused (Refusal.notEnabled m g)) (State.put_line s r n)

/-! ### An ADRES that nothing reads (R27) -/

theorem serviceTimer_setAdres (a : Sample) : serviceTimer P (s.setAdres a) = (serviceTimer P s).setAdres a := by
  simp only [serviceTimer, State.setAdres_phase]
  cases s.phase <;> cases P.policy <;> rfl

/-- With no completed conversion the only service is the period-elapsed one. -/
theorem chosen_ne_adc_of_adcIf_clear {pick : Service} (h : s.adcIf = false) : chosen P pick s ≠ some .adc :=
  fun hk => by simpa [adcServiceable, h] using (serviceable_of_chosen hk).2 rfl

/-- DONE and RESET replace ADRES, whatever it held. -/
theorem execWith_setAdres_of_replaces (a : Sample) (hi : (∃ v, i = .done v) ∨ i = .reset) :
    execWith P i (s.setAdres a) = execWith P i s := by
  obtain ⟨v, rfl⟩ | rfl := hi <;> rfl

/-- With no completed conversion every other operation carries ADRES along unread. -/
theorem execWith_setAdres (a : Sample) (h : s.adcIf = false) (hi : ¬ ((∃ v, i = .done v) ∨ i = .reset)) :
    execWith P i (s.setAdres a) = mapNext (State.setAdres a) (execWith P i s) := by
  cases i with
  | done v => exact absurd (.inl ⟨v, rfl⟩) hi
  | reset => exact absurd (.inr rfl) hi
  | svct => exact execWith_map (f := State.setAdres a) rfl rfl (serviceTimer_setAdres a)
  | svca => simp [execWith, svcaWith, svcaBlocked, h, guarded]
  | svc =>
    refine execWith_map (f := State.setAdres a) rfl rfl ?_
    have hchosen : chosen P (Config.arbiterPicks (s.setAdres a).draws) (s.setAdres a) =
      chosen P (Config.arbiterPicks s.draws) s := rfl
    have hopen : choiceIsOpen P (s.setAdres a) = choiceIsOpen P s := rfl
    simp only [effectOf, hchosen, hopen]
    rcases hk : chosen P (Config.arbiterPicks s.draws) s with _ | _ | _
    · rfl
    · simp only [Option.map_some, Option.getD_some, serviced, serviceTimer_setAdres]
      cases choiceIsOpen P s <;> rfl
    · exact absurd hk (chosen_ne_adc_of_adcIf_clear h)
  | idle | tick | arm | pwmck => rfl

/-- Only DONE sets ADC_IF. -/
theorem adcIf_clear_of_execWith (h : execWith P i s = .next t) (hs : s.adcIf = false) (hi : ¬ ∃ v, i = .done v) :
    t.adcIf = false :=
  Bool.eq_false_of_not_eq_true fun ht => hi ((adcIf_flagStep h).event_of_rise hs ht)

/-- With ADC_IF 0 at its start, a run does not see ADRES: it ends as before, or as before but for an ADRES that still nothing
has replaced. -/
theorem runOps_setAdres (ops : List Instr) (a : Sample) (hs : s.adcIf = false) :
    runOps P ops (s.setAdres a) = runOps P ops s ∨
      (runOps P ops (s.setAdres a) = mapNext (State.setAdres a) (runOps P ops s) ∧
        ∀ t, runOps P ops s = .next t → t.adcIf = false) := by
  induction ops generalizing s with
  | nil => exact .inr ⟨rfl, fun t ht => by cases ht; exact hs⟩
  | cons i is ih =>
    by_cases hi : (∃ v, i = .done v) ∨ i = .reset
    · exact .inl (by rw [runOps, execWith_setAdres_of_replaces a hi, runOps])
    · simp only [runOps, execWith_setAdres a hs hi]
      cases hstep : execWith P i s with
      | next u =>
        have hu : u.adcIf = false := adcIf_clear_of_execWith hstep hs fun hdone => hi (.inl hdone)
        exact ih (s := { u with line := u.line + 1 }) hu
      | fault r => exact .inl rfl
      | refused r => exact .inl rfl

end Sys2Proof.Machine

namespace Sys2Proof.Proofs
open Sys2Proof.Machine

/-- Settles O41: with ADC_IF 0 after RESET, both runs have the same outcome, up to an ADRES that nothing has read. -/
theorem unspecifiedAdresNeverObserved : Obligations.UnspecifiedAdresNeverObserved := by
  intro P ops s r a hreset
  have hr : r.adcIf = false := (adcIf_flagStep hreset).clear (.inr rfl)
  obtain heq | ⟨heq, hclear⟩ := runOps_setAdres (P := P) ops a hr
  · exact ⟨fun t ht => ⟨t, heq.trans ht, rfl, rfl, .inl rfl⟩, fun why hwhy => heq.trans hwhy⟩
  · refine ⟨fun t ht => ⟨t.setAdres a, ?_, rfl, rfl, .inr ⟨rfl, hclear t ht⟩⟩, fun why hwhy => ?_⟩
    · exact heq.trans (by rw [ht, mapNext_of_next])
    · exact heq.trans (by rw [hwhy, mapNext_of_refused])

/-- Settles O22: each step stays within its frame; each guard and each effect of the block only reads what the table says. -/
theorem registerAccessTableHolds : Obligations.RegisterAccessTableHolds :=
  ⟨fun _ _ _ _ h => ⟨untouched_of_execWith h, trace_of_execWith h, line_of_execWith h⟩, fun _ _ _ _ hr => exec_put hr⟩

end Sys2Proof.Proofs
end

