-- ==== Sys2Proof/Proofs/Pairs.lean ====
section
/-! SUPPORT. The mapper as pairs and as bits (spec/40_mapper.md R65, R66; spec/42_output.md R92): the linear form of each half of the
range, which sample a pair came from, and the forms that fit an 8-bit datapath. -/
namespace Sys2Proof.Machine
variable {v : Sample} {d : DirField} {m : Duty}

/-! ### The pairs of the mapper (R65, R92) -/

theorem magnitude_of_forward (h : v.toNat > 127) : (magnitude v).toNat = 2 * v.toNat - 256 := by
  have hm := magnitude_toNat v
  obtain h' | h' : v.toNat = 128 ∨ v.toNat > 128 := by omega
  · rw [magnitudeExact_deadZone (.inr h')] at hm; omega
  · rw [magnitudeExact_above h'] at hm; omega

theorem magnitude_of_reverse (h : v.toNat ≤ 127) : (magnitude v).toNat = 254 - 2 * v.toNat := by
  have hm := magnitude_toNat v
  obtain h' | h' : v.toNat = 127 ∨ v.toNat < 127 := by omega
  · rw [magnitudeExact_deadZone (.inl h')] at hm; omega
  · rw [magnitudeExact_below h'] at hm; omega

theorem map_of_forward (h : v.toNat > 127) : map v = (0b01, magnitude v) := by
  rw [map, direction_eq_forward_iff.mpr h]; rfl

theorem map_of_reverse (h : v.toNat ≤ 127) : map v = (0b10, magnitude v) := by
  rw [map, direction_eq_reverse_iff.mpr h]; rfl

/-- The samples of a Forward pair: the duty says which. -/
theorem map_eq_forward_iff : map v = (0b01, m) ↔ v.toNat > 127 ∧ m.toNat = 2 * v.toNat - 256 := by
  by_cases h : v.toNat > 127
  · rw [map_of_forward h, Prod.mk.injEq, ← magnitude_of_forward h, ← BitVec.toNat_eq, eq_comm (a := m)]
    simp [h]
  · rw [map_of_reverse (Nat.le_of_not_lt h)]
    simp [h]

/-- The samples of a Reverse pair. -/
theorem map_eq_reverse_iff : map v = (0b10, m) ↔ v.toNat ≤ 127 ∧ m.toNat = 254 - 2 * v.toNat := by
  by_cases h : v.toNat ≤ 127
  · rw [map_of_reverse h, Prod.mk.injEq, ← magnitude_of_reverse h, ← BitVec.toNat_eq, eq_comm (a := m)]
    simp [h]
  · rw [map_of_forward (Nat.lt_of_not_le h)]
    simp [h]

/-- Every pair inside APPLY's contract is the map of exactly one sample. -/
theorem existsUnique_map_of_legal (h : applyLegal d m = true) : ∃ v, map v = (d, m) ∧ ∀ v', map v' = (d, m) → v' = v := by
  obtain ⟨hd, heven, hle⟩ := applyLegal_iff.mp h
  obtain rfl | rfl := hd
  · refine ⟨BitVec.ofNat 8 (128 + m.toNat / 2), map_eq_forward_iff.mpr ?_, fun v' h' => BitVec.eq_of_toNat_eq ?_⟩
    · rw [BitVec.toNat_ofNat]; omega
    · obtain ⟨hv, hm⟩ := map_eq_forward_iff.mp h'
      rw [BitVec.toNat_ofNat]; omega
  · refine ⟨BitVec.ofNat 8 (127 - m.toNat / 2), map_eq_reverse_iff.mpr ?_, fun v' h' => BitVec.eq_of_toNat_eq ?_⟩
    · rw [BitVec.toNat_ofNat]; omega
    · obtain ⟨hv, hm⟩ := map_eq_reverse_iff.mp h'
      rw [BitVec.toNat_ofNat]; omega

/-- What the pair of a sample looks like, and which half of the range it came from. -/
theorem of_map_eq (h : (d, m) = map v) : (d = 0b01 ∧ v.toNat > 127 ∨ d = 0b10 ∧ v.toNat ≤ 127) ∧
    m.toNat % 2 = 0 ∧ m.toNat ≤ 254 := by
  have hlegal := applyLegal_map v
  rw [← h] at hlegal
  obtain ⟨hd, hduty⟩ := applyLegal_iff.mp hlegal
  refine ⟨hd.imp (fun hd => ⟨hd, ?_⟩) (fun hd => ⟨hd, ?_⟩), hduty⟩ <;> subst hd
  · exact (map_eq_forward_iff.mp h.symm).1
  · exact (map_eq_reverse_iff.mp h.symm).1

/-! ### 8-bit forms (R66) -/

/-- The top bit says which half of the range a sample lies in. -/
theorem getLsbD_seven (v : Sample) : v.getLsbD 7 = decide (v.toNat > 127) := by
  have hv := v.isLt
  rw [BitVec.getLsbD, Nat.testBit_eq_decide_div_mod_eq, decide_eq_decide]
  omega

/-- Appending a zero bit doubles. -/
theorem toNat_append_zero (x : BitVec 7) : (x ++ 0#1 : BitVec 8).toNat = 2 * x.toNat := by
  refine (BitVec.toNat_append x 0#1).trans ?_
  rw [BitVec.toNat_ofNat, Nat.shiftLeft_eq, Nat.zero_mod, Nat.or_zero, Nat.mul_comm, Nat.pow_one]

theorem magnitude_eq_append_of_forward (h : v.toNat > 127) : magnitude v = v.extractLsb' 0 7 ++ 0#1 := by
  have hv := v.isLt
  refine BitVec.eq_of_toNat_eq ?_
  rw [magnitude_of_forward h, toNat_append_zero, BitVec.extractLsb'_toNat, Nat.shiftRight_zero]
  omega

theorem magnitude_eq_append_of_reverse (h : v.toNat ≤ 127) : magnitude v = ~~~ (v.extractLsb' 0 7) ++ 0#1 := by
  refine BitVec.eq_of_toNat_eq ?_
  rw [magnitude_of_reverse h, toNat_append_zero, BitVec.toNat_not, BitVec.extractLsb'_toNat, Nat.shiftRight_zero]
  omega

theorem magnitude_eq_shift_of_forward (h : v.toNat > 127) : magnitude v = v <<< 1 := by
  have hv := v.isLt
  refine BitVec.eq_of_toNat_eq ?_
  rw [magnitude_of_forward h, BitVec.toNat_shiftLeft, Nat.shiftLeft_eq]
  omega

theorem magnitude_eq_shift_of_reverse (h : v.toNat ≤ 127) : magnitude v = ~~~ v <<< 1 := by
  refine BitVec.eq_of_toNat_eq ?_
  rw [magnitude_of_reverse h, BitVec.toNat_shiftLeft, BitVec.toNat_not, Nat.shiftLeft_eq]
  omega

end Sys2Proof.Machine

namespace Sys2Proof.Proofs
open Sys2Proof.Machine

/-- Settles O30: the pairs of the mapper are legal, and a legal pair's direction and duty give its one sample back. -/
theorem legalPairsAreMappedOnce : Obligations.LegalPairsAreMappedOnce :=
  ⟨applyLegal_map, fun _ _ => existsUnique_map_of_legal⟩

/-- Settles O31: the top bit is the half of the range, on each of which every form is the same doubling. -/
theorem mapperHasEightBitForms : Obligations.MapperHasEightBitForms := by
  intro v
  rw [direction_eq_forward_iff, getLsbD_seven]
  by_cases h : v.toNat > 127
  · have happend := magnitude_eq_append_of_forward h
    have hlinear := magnitude_of_forward h
    rw [decide_eq_true h, if_pos rfl]
    exact ⟨iff_of_true h rfl, happend, fun _ => by omega, nofun, fun hle => by omega,
      fun _ => magnitude_eq_shift_of_forward h, fun _ => by rw [map_of_forward h, happend], nofun⟩
  · have hle : v.toNat ≤ 127 := Nat.le_of_not_lt h
    have happend := magnitude_eq_append_of_reverse hle
    have hlinear := magnitude_of_reverse hle
    rw [decide_eq_false h, if_neg nofun]
    exact ⟨iff_of_false h nofun, happend, nofun, fun _ => by omega, fun _ => magnitude_eq_shift_of_reverse hle,
      fun hge => by omega, nofun, fun _ => by rw [map_of_reverse hle, happend]⟩

end Sys2Proof.Proofs
end

