-- ==== Sys2Proof/Proofs/Invariants.lean ====
section
/-! SUPPORT. The invariants of the block (spec/10_state.md R25, R26; spec/42_output.md R93): legal outputs, PHASE coupled to the
conversion, PWMCNT in range, and what every step does to each. -/
namespace Sys2Proof.Machine
variable {P : Params} {i : Instr} {s t : State}

/-! ### Legal outputs (R25) -/

theorem outputs_of_takes_adc (h : execWith P i s = .next t) (hk : serviceOf P i s = some .adc) :
    (t.dirOut, t.duty) = map s.adres := by
  obtain ⟨c, rfl⟩ := eq_of_takes_adc h hk
  rw [countDraw_dirOut, countDraw_duty, servedAdc_outputs]

theorem outputsLegal_of_execWith (hs : OutputsLegal s) (h : execWith P i s = .next t) : OutputsLegal t := by
  by_cases hi : i = .reset
  · subst hi; cases h; exact .inl ⟨rfl, rfl⟩
  · by_cases hk : serviceOf P i s = some .adc
    · exact .inr ⟨s.adres, outputs_of_takes_adc h hk⟩
    · obtain ⟨hd, hm⟩ := outputs_of_execWith h hi hk
      rwa [OutputsLegal, hd, hm]

theorem ranges_of_outputsLegal (h : OutputsLegal s) : s.dirOut ≠ 0b11 ∧ s.duty.toNat % 2 = 0 ∧ s.duty.toNat ≤ 254 ∧
    (s.dirOut = 0b00 → s.duty = 0) := by
  obtain ⟨hd, hm⟩ | ⟨v, hv⟩ := h
  · simp [hd, hm]
  · obtain ⟨⟨hd, -⟩ | ⟨hd, -⟩, heven, hle⟩ := of_map_eq hv <;> simp [hd, heven, hle]

/-! ### PHASE and the conversion (R26) -/

theorem SchedulerCoupled.of_idle (hs : SchedulerCoupled s) (h : s.phase = .idle) : s.convBusy = false ∧ s.adcIf = false := by
  obtain ⟨-, hphase⟩ := hs
  have hnone : ¬ (s.convBusy = true ∨ s.adcIf = true) := fun hor => nomatch h.symm.trans (hphase.mpr hor)
  simpa using hnone

/-- The start of a conversion keeps the coupling wherever no completed one waits. -/
theorem schedulerCoupled_of_start (hbusy : t.convBusy = true) (hif : t.adcIf = false) (hphase : t.phase = .converting) :
    SchedulerCoupled t := by
  simp [SchedulerCoupled, hbusy, hif, hphase]

theorem schedulerCoupled_of_rest (hbusy : t.convBusy = false) (hif : t.adcIf = false) (hphase : t.phase = .idle) :
    SchedulerCoupled t := by
  simp [SchedulerCoupled, hbusy, hif, hphase]

theorem schedulerCoupled_congr (hs : SchedulerCoupled s) (hbusy : t.convBusy = s.convBusy) (hif : t.adcIf = s.adcIf)
    (hphase : t.phase = s.phase) : SchedulerCoupled t := by
  rwa [SchedulerCoupled, hbusy, hif, hphase]

/-- A period-elapsed service that AdcFirst lets through finds no completed conversion where both sources are enabled. -/
theorem adcIf_clear_of_takes_timer (h : execWith P i s = .next t) (hk : serviceOf P i s = some .timer)
    (hie : EnabledTogether s) (ho : P.order = .adcFirst) : s.adcIf = false := by
  obtain ⟨htimer, horder⟩ := enabled_of_takes h hk
  obtain ⟨-, htie, -⟩ := timerServiceable_iff.mp htimer
  have hadc : ¬ adcServiceable s = true := fun ha => horder ⟨ho, ha⟩
  have haie : s.adcIe = true := hie.symm.trans htie
  simpa [adcServiceable, haie] using hadc

/-- Every operation keeps PHASE coupled to the conversion, except a Restart that does not yield to a completed one. -/
theorem schedulerCoupled_of_execWith (hP : P.policy ≠ .restart ∨ P.order = .adcFirst) (hs : SchedulerCoupled s)
    (hie : EnabledTogether s) (h : execWith P i s = .next t) : SchedulerCoupled t := by
  cases move_of_execWith h with
  | timer hi hserviceable c ht =>
    obtain ⟨hphase, hst⟩ | ⟨hphase, -, hst⟩ | ⟨hphase, hpolicy, hst⟩ := serviceTimer_cases hserviceable <;> rw [hst] at ht
    · exact schedulerCoupled_of_start (by simp [ht]) (by simp [ht, hs.of_idle hphase]) (by simp [ht])
    · exact schedulerCoupled_congr hs (by simp [ht]) (by simp [ht]) (by simp [ht])
    · have hif := adcIf_clear_of_takes_timer h hi hie (hP.resolve_left (not_not.mpr hpolicy))
      exact schedulerCoupled_of_start (by simp [ht]) (by simp [ht, hif]) (by simp [ht, hphase])
  | adc _ hserviceable c ht =>
    obtain ⟨-, hbusy⟩ := hs.of_adcIf (adcServiceable_iff.mp hserviceable).1
    exact schedulerCoupled_of_rest (by simp [ht, servedAdc, hbusy]) (by simp [ht, servedAdc]) (by simp [ht, servedAdc])
  | done v _ hbusy ht =>
    obtain ⟨-, hphase⟩ := hs
    simp [SchedulerCoupled, ht, hphase.mpr (.inl hbusy)]
  | reset _ ht => cases ht; exact schedulerCoupled_of_rest rfl rfl rfl
  | idle _ ht | tick _ ht | arm _ ht | pwmck _ ht => subst ht; exact schedulerCoupled_congr hs rfl rfl rfl

theorem SchedulerCoupled.adcIf_of_convBusy (hs : SchedulerCoupled s) (h : s.convBusy = true) : s.adcIf = false := by
  obtain ⟨hexcl, -⟩ := hs
  exact Bool.eq_false_of_not_eq_true fun hif => hexcl ⟨h, hif⟩

/-- RESET couples the scheduler and the enables, from any state. -/
theorem coupled_of_reset (h : execWith P .reset s = .next t) : SchedulerCoupled t ∧ EnabledTogether t := by
  cases h
  exact ⟨schedulerCoupled_of_rest rfl rfl rfl, rfl⟩

/-! ### PWMCNT and the whole invariant (R93) -/

theorem pwmInRange_of_execWith (hP : 0 < P.pwmPeriod) (hs : PwmInRange P s) (h : execWith P i s = .next t) :
    PwmInRange P t := by
  cases move_of_execWith h with
  | pwmck _ ht => subst ht; exact Nat.mod_lt _ hP
  | reset _ ht => cases ht; exact hP
  | timer _ hserviceable c ht =>
    have hcnt : (serviceTimer P s).pwmcnt = s.pwmcnt := (effect_serviceTimer hserviceable).registers .pwmcnt (by decide)
    rwa [PwmInRange, ht, countDraw_pwmcnt, hcnt]
  | adc _ _ c ht => rwa [PwmInRange, ht, countDraw_pwmcnt, servedAdc_pwmcnt]
  | idle _ ht | tick _ ht | done _ _ _ ht | arm _ ht => subst ht; exact hs

/-- Under Drop and Defer every operation keeps the whole invariant. -/
theorem inv_of_execWith (hpolicy : P.policy ≠ .restart) (hperiod : 0 < P.pwmPeriod) (hs : Inv P s)
    (h : execWith P i s = .next t) : Inv P t where
  outputs := outputsLegal_of_execWith hs.outputs h
  coupled := schedulerCoupled_of_execWith (.inl hpolicy) hs.coupled hs.together h
  together := enabledTogether_of_execWith hs.together h
  pwm := pwmInRange_of_execWith hperiod hs.pwm h

/-- The advance of the trace writes no register. -/
theorem inv_advance (rest : List EventWord) (hs : Inv P s) : Inv P (s.advance rest) :=
  ⟨hs.outputs, hs.coupled, hs.together, hs.pwm⟩

/-! ### The coupling that Restart breaks (R26) -/

/-- Outside AdcFirst, `BOOT ; TICK ; SVCT ; DONE 0 ; TICK` leads from every state to a completed conversion and a waiting period. -/
theorem exists_completed_with_period (s : State) (ho : P.order ≠ .adcFirst) :
    ∃ c, runOps P [.reset, .arm, .tick, .svct, .done 0, .tick] s = .next c ∧ c.tmrIf = true ∧ c.tmrIe = true ∧
      c.phase = .converting ∧ c.adcIf = true ∧ c.adcIe = true := by
  exact ⟨_, runOps_cons_next rfl <| runOps_cons_next rfl <| runOps_cons_next rfl <|
    runOps_cons_next (svctWith_of_idle rfl rfl rfl fun h => ho h.1) <|
    runOps_cons_next (execDone_of_busy 0 rfl) <| runOps_cons_next rfl rfl, rfl, rfl, rfl, rfl, rfl⟩

end Sys2Proof.Machine

namespace Sys2Proof.Proofs
open Sys2Proof.Machine

/-- Settles O34: a step is an operation of the block and an advance; the operation keeps each part of the invariant under Drop. -/
theorem stepKeepsInvariant : Obligations.StepKeepsInvariant := by
  intro s t hs h
  obtain ⟨i, rest, u, hexec, rfl⟩ := exec_of_step h
  rw [exec_eq_execWith] at hexec
  exact inv_advance rest (inv_of_execWith (by decide) (Nat.succ_pos _) hs hexec)

/-- Settles O38: the coupling through every move, RESET's values, and DONE's guard in a coupled state. -/
theorem schedulerStaysCoupled : Obligations.SchedulerStaysCoupled := by
  refine fun P hP => ⟨fun i s t hs hie h => ⟨schedulerCoupled_of_execWith hP hs hie h, enabledTogether_of_execWith hie h⟩,
    fun s t => coupled_of_reset, fun v s t hs h => ?_⟩
  have hbusy : Enabled P (.done v) s := enabled_of_execWith h
  exact hs.adcIf_of_convBusy hbusy

/-- Settles O36: RESET and the conversion-complete service write legal pairs, and no other move writes the outputs. -/
theorem outputsStayLegalUnderEveryPolicy : Obligations.OutputsStayLegalUnderEveryPolicy :=
  ⟨fun _ _ _ _ => outputsLegal_of_execWith, fun _ => ranges_of_outputsLegal⟩

/-- Settles O35: the reset state is at rest, with equal enables and a count below the period. -/
theorem resetMeetsInvariant : Obligations.ResetMeetsInvariant :=
  ⟨.inl ⟨rfl, rfl⟩, schedulerCoupled_of_rest rfl rfl rfl, rfl, Nat.succ_pos _⟩

/-- Settles O40: a period-elapsed service that restarts over the completed conversion, then the conversion-complete one. -/
theorem restartBreaksCoupling : Obligations.RestartBreaksCoupling := by
  intro P s hP ho
  obtain ⟨c, hrun, hif, hie, hphase, haif, haie⟩ := exists_completed_with_period s ho
  have hrestart : execWith P .svct c = .next (c.setTmrIf false).requestConversion :=
    svctWith_restarted hif hie hphase (fun h => ho h.1) hP
  have hsvct := (runOps_append _ [.svct] s).trans
    ((congrArg (onNext · _) hrun).trans (runOps_cons_next hrestart rfl))
  exact ⟨_, _, _, hsvct, rfl, haif,
    svcaWith_of_serviceable haif haie (fun h => not_timerServiceable_of_tmrIf_clear rfl h.2), rfl, rfl⟩

end Sys2Proof.Proofs
end

