-- ==== Sys2Proof/Proofs/Runs.lean ====
section
/-! SUPPORT. Runs from a RESET (spec/10_state.md R25, R26; spec/41_scheduler.md R80; spec/70_reset_and_hazards.md R121): what a run
gains in its history, read off step by step against the samples served, the start requests and the samples converted. -/
namespace Sys2Proof.Machine
variable {P : Params} {i : Instr} {s t : State} {ops : List Instr}

/-! ### The events of a run (R22) -/

/-- The events that a run appends to the history. -/
def gainedRun (P : Params) : List Instr → State → List Event
  | [], _ => []
  | i :: is, s => gained P i s ++ ((nextOf (execWith P i s)).map fun u => gainedRun P is u.nextLine).getD []

theorem gainedRun_cons {is : List Instr} {u : State} (h : execWith P i s = .next u) :
    gainedRun P (i :: is) s = gained P i s ++ gainedRun P is u.nextLine := by
  rw [gainedRun, h]; rfl

theorem history_of_runOps (h : runOps P ops s = .next t) : t.history = s.history ++ gainedRun P ops s := by
  induction ops generalizing s with
  | nil => cases h; exact (List.append_nil _).symm
  | cons i is ih =>
    obtain ⟨u, hstep, hrun⟩ := runOps_cons_eq_next.mp h
    rw [ih hrun, nextLine_history, history_of_execWith hstep, gainedRun_cons hstep, List.append_assoc]

/-! ### The sample served last (R25) -/

theorem servedSamples_cons {is : List Instr} {u : State} (h : execWith P i s = .next u) : servedSamples P (i :: is) s =
    (if serviceOf P i s = some .adc then [s.adres] else []) ++ servedSamples P is u.nextLine := by
  rw [servedSamples, h]; rfl

/-- In a run without RESET the outputs are overwritten by the map of each sample served, in order. -/
theorem outputs_of_runOps (hr : Instr.reset ∉ ops) (h : runOps P ops s = .next t) :
    (t.dirOut, t.duty) = (servedSamples P ops s).foldl (fun _ v => map v) (s.dirOut, s.duty) := by
  induction ops generalizing s with
  | nil => cases h; rfl
  | cons i is ih =>
    obtain ⟨u, hstep, hrun⟩ := runOps_cons_eq_next.mp h
    obtain ⟨hi, his⟩ := List.ne_and_not_mem_of_not_mem_cons hr
    rw [ih his hrun, servedSamples_cons hstep, nextLine_dirOut, nextLine_duty]
    by_cases hk : serviceOf P i s = some .adc
    · have hu : (u.dirOut, u.duty) = map s.adres := outputs_of_takes_adc hstep hk
      simp only [if_pos hk, List.singleton_append, List.foldl_cons, hu]
    · obtain ⟨hd, hm⟩ := outputs_of_execWith hstep hi.symm hk
      simp only [if_neg hk, List.nil_append, hd, hm]

theorem outputs_of_getLast?_served {v : Sample} (hr : Instr.reset ∉ ops) (h : runOps P ops s = .next t)
    (hv : (servedSamples P ops s).getLast? = some v) : (t.dirOut, t.duty) = map v := by
  obtain ⟨vs, hvs⟩ := List.getLast?_eq_some_iff.mp hv
  rw [outputs_of_runOps hr h, hvs, List.foldl_append]
  rfl

/-! ### Start requests and applies in turn (R26) -/

/-- Which event comes next in the alternation: a start request exactly in Idle. -/
def startNext (s : State) : Bool := decide (s.phase = .idle)

theorem startNext_of_idle (h : s.phase = .idle) : startNext s = true := decide_eq_true h

theorem startNext_of_converting (h : s.phase = .converting) : startNext s = false := by simp [startNext, h]

/-- A step of a coupled scheduler adds at most the one event whose turn it is, and passes the turn on. -/
theorem alternates_step {es : List Event} (hP : P.policy ≠ .restart) (hs : SchedulerCoupled s) (hi : i ≠ .reset)
    (h : execWith P i s = .next t) (hes : Alternates (startNext t) es) : Alternates (startNext s) (gained P i s ++ es) := by
  rcases hk : serviceOf P i s with _ | _ | _
  · have hphase := phase_of_no_service h hk hi
    rw [gained_of_no_service hk]
    rwa [startNext, hphase] at hes
  · rw [startNext_of_converting (phase_of_timer h hk)] at hes
    rw [gained_of_timer hk]
    cases hphase : s.phase with
    | idle =>
      rw [startEvents_of_starts (.inl hphase), startNext_of_idle hphase]
      exact hes
    | converting =>
      rw [startEvents_of_not_starts (by simp [Starts, hphase, hP]), startNext_of_converting hphase]
      exact hes
  · obtain ⟨hphase, -⟩ := hs.of_adcIf (adcServiceable_iff.mp (adcServiceable_of_takes h hk)).1
    rw [startNext_of_idle (phase_of_adc h hk)] at hes
    rw [gained_of_adc hk, startNext_of_converting hphase]
    exact hes

theorem alternates_of_runOps (hP : P.policy ≠ .restart) (hs : SchedulerCoupled s) (hie : EnabledTogether s)
    (hr : Instr.reset ∉ ops) (h : runOps P ops s = .next t) : Alternates (startNext s) (gainedRun P ops s) := by
  induction ops generalizing s with
  | nil => cases startNext s <;> trivial
  | cons i is ih =>
    obtain ⟨u, hstep, hrun⟩ := runOps_cons_eq_next.mp h
    obtain ⟨hi, his⟩ := List.ne_and_not_mem_of_not_mem_cons hr
    have hu : SchedulerCoupled u := schedulerCoupled_of_execWith (.inl hP) hs hie hstep
    have hieu : EnabledTogether u := enabledTogether_of_execWith hie hstep
    have hrest := ih (s := u.nextLine) hu hieu his hrun
    rw [gainedRun_cons hstep]
    exact alternates_step hP hs hi.symm hstep hrest

/-! ### The samples applied (R80) -/

theorem applied_append (es es' : List Event) : applied (es ++ es') = applied es ++ applied es' := by
  induction es with
  | nil => rfl
  | cons e es ih => cases e <;> simp [applied, ih]

theorem doneSamples_cons (i : Instr) (is : List Instr) : doneSamples (i :: is) = doneSamples [i] ++ doneSamples is := by
  cases i <;> rfl

/-- The completed sample that waits for its service. -/
def waiting (s : State) : List Sample := if s.adcIf then [s.adres] else []

/-- The waiting sample, where the operation does not overwrite or discard it. -/
def keptWaiting (i : Instr) (s : State) : List Sample :=
  match i with
  | .done _ | .reset => []
  | .idle | .tick | .svct | .svca | .svc | .arm | .pwmck => waiting s

theorem keptWaiting_sublist : (keptWaiting i s).Sublist (waiting s) := by
  cases i with
  | done | reset => exact List.nil_sublist _
  | idle | tick | svct | svca | svc | arm | pwmck => exact List.Sublist.refl _

theorem waiting_of_adcIf_clear (h : s.adcIf = false) : waiting s = [] := by simp [waiting, h]

theorem keptWaiting_of_serviceOf {k : Service} (h : serviceOf P i s = some k) : keptWaiting i s = waiting s := by
  cases i with
  | svct | svca | svc => rfl
  | idle | tick | done | arm | pwmck | reset => cases h

theorem doneSamples_of_serviceOf {k : Service} (h : serviceOf P i s = some k) : doneSamples [i] = [] := by
  cases i with
  | svct | svca | svc => rfl
  | idle | tick | done | arm | pwmck | reset => cases h

/-- One step: what it applies and what waits after it are the map of what it kept waiting and the sample it converted. -/
theorem applied_step (h : execWith P i s = .next t) :
    applied (gained P i s) ++ (waiting t).map map = (keptWaiting i s ++ doneSamples [i]).map map := by
  cases move_of_execWith h with
  | timer hi hs c ht =>
    obtain ⟨hif, -⟩ := serviceTimer_adcIf_adcIe hs
    have hadres : (serviceTimer P s).adres = s.adres :=
      BitVec.eq_of_toNat_eq ((effect_serviceTimer hs).registers .adres (by decide))
    have happlied : applied (startEvents P s) = [] := by
      by_cases hstart : Starts P s
      · rw [startEvents_of_starts hstart]; rfl
      · rw [startEvents_of_not_starts hstart]; rfl
    rw [gained_of_timer hi, keptWaiting_of_serviceOf hi, doneSamples_of_serviceOf hi, happlied, List.append_nil]
    simp [waiting, ht, hif, hadres]
  | adc hi hs c ht =>
    obtain ⟨hif, -⟩ := adcServiceable_iff.mp hs
    have hclear : waiting t = [] := waiting_of_adcIf_clear (by simp [ht, servedAdc])
    rw [gained_of_adc hi, keptWaiting_of_serviceOf hi, doneSamples_of_serviceOf hi, hclear]
    simp [applied, waiting, hif]
  | done v hi _ ht => subst hi ht; rfl
  | reset hi ht => subst hi; cases ht; rfl
  | idle hi ht | tick hi ht | arm hi ht | pwmck hi ht =>
    have hw : waiting t = waiting s := ht ▸ rfl
    subst hi
    show [] ++ (waiting t).map map = (waiting s ++ []).map map
    rw [hw, List.append_nil, List.nil_append]

theorem applied_gainedRun_cons {is : List Instr} {u : State} (h : execWith P i s = .next u) :
    applied (gainedRun P (i :: is) s) = applied (gained P i s) ++ applied (gainedRun P is u.nextLine) := by
  rw [gainedRun_cons h, applied_append]

/-- The step's equation with the samples of the lines after it. -/
theorem applied_step_append {u : State} (is : List Instr) (h : execWith P i s = .next u) :
    applied (gained P i s) ++ (waiting u ++ doneSamples is).map map = (keptWaiting i s ++ doneSamples (i :: is)).map map := by
  rw [doneSamples_cons i is, ← List.append_assoc, List.map_append, List.map_append, ← applied_step h, List.append_assoc]

/-- Under every policy what a run applies, and what waits after it, is the map of a subsequence of the samples there were. -/
theorem applied_sublist_of_runOps (h : runOps P ops s = .next t) :
    (applied (gainedRun P ops s) ++ (waiting t).map map).Sublist ((waiting s ++ doneSamples ops).map map) := by
  induction ops generalizing s with
  | nil => cases h; simp [gainedRun, applied, doneSamples]
  | cons i is ih =>
    obtain ⟨u, hstep, hrun⟩ := runOps_cons_eq_next.mp h
    have hrest : (applied (gainedRun P is u.nextLine) ++ (waiting t).map map).Sublist
      ((waiting u ++ doneSamples is).map map) := ih hrun
    have hkept : (keptWaiting i s ++ doneSamples (i :: is)).Sublist (waiting s ++ doneSamples (i :: is)) :=
      keptWaiting_sublist.append (List.Sublist.refl _)
    rw [applied_gainedRun_cons hstep, List.append_assoc]
    refine List.Sublist.trans ((List.Sublist.refl _).append hrest) ?_
    rw [applied_step_append is hstep]
    exact hkept.map map

/-- In a coupled scheduler a DONE overwrites nothing, and a RESET discards nothing where ADC_IF is 0. -/
theorem keptWaiting_eq (hs : SchedulerCoupled s) (hreset : i = .reset → s.adcIf = false) (h : execWith P i s = .next t) :
    keptWaiting i s = waiting s := by
  cases i with
  | done v =>
    have hbusy : Enabled P (.done v) s := enabled_of_execWith h
    exact (waiting_of_adcIf_clear (hs.adcIf_of_convBusy hbusy)).symm
  | reset => exact (waiting_of_adcIf_clear (hreset rfl)).symm
  | idle | tick | svct | svca | svc | arm | pwmck => rfl

/-- Under Drop and Defer, where no RESET discards a sample, it is the map of all of them. -/
theorem applied_eq_of_runOps (hP : P.policy ≠ .restart) (hs : SchedulerCoupled s) (hie : EnabledTogether s)
    (hnone : NoneDiscarded P ops s) (h : runOps P ops s = .next t) :
    applied (gainedRun P ops s) ++ (waiting t).map map = (waiting s ++ doneSamples ops).map map := by
  induction ops generalizing s with
  | nil => cases h; simp [gainedRun, applied, doneSamples]
  | cons i is ih =>
    obtain ⟨u, hstep, hrun⟩ := runOps_cons_eq_next.mp h
    obtain ⟨hreset, hnext⟩ := hnone
    have hu : SchedulerCoupled u := schedulerCoupled_of_execWith (.inl hP) hs hie hstep
    have hieu : EnabledTogether u := enabledTogether_of_execWith hie hstep
    have hrest : applied (gainedRun P is u.nextLine) ++ (waiting t).map map = (waiting u ++ doneSamples is).map map :=
      ih (s := u.nextLine) hu hieu (hnext u hstep) hrun
    rw [applied_gainedRun_cons hstep, List.append_assoc, hrest, applied_step_append is hstep,
      keptWaiting_eq hs hreset hstep]

/-! ### Before ARM (R121) -/

/-- What a RESET leaves and only ARM ends: both sources disabled, nothing in flight, the outputs at their reset values. -/
structure Unarmed (s : State) : Prop where
  tmrIe : s.tmrIe = false
  adcIe : s.adcIe = false
  convBusy : s.convBusy = false
  dirOut : s.dirOut = 0b00
  duty : s.duty = 0x00

theorem unarmed_of_reset (h : execWith P .reset s = .next t) : Unarmed t := by
  cases h
  exact ⟨rfl, rfl, rfl, rfl, rfl⟩

theorem Unarmed.not_timerServiceable (hs : Unarmed s) : ¬ timerServiceable P s = true := by
  simp [timerServiceable, hs.tmrIe]

theorem Unarmed.not_adcServiceable (hs : Unarmed s) : ¬ adcServiceable s = true := by
  simp [adcServiceable, hs.adcIe]

theorem unarmed_of_execWith (hs : Unarmed s) (hi : i ≠ .arm) (h : execWith P i s = .next t) : Unarmed t := by
  cases move_of_execWith h with
  | timer _ hserviceable => exact absurd hserviceable hs.not_timerServiceable
  | adc _ hserviceable => exact absurd hserviceable hs.not_adcServiceable
  | done _ _ hbusy => exact nomatch hs.convBusy.symm.trans hbusy
  | arm hi' => exact absurd hi' hi
  | reset hi' => subst hi'; exact unarmed_of_reset h
  | idle _ ht | tick _ ht | pwmck _ ht => subst ht; exact ⟨hs.tmrIe, hs.adcIe, hs.convBusy, hs.dirOut, hs.duty⟩

theorem unarmed_of_runOps (hs : Unarmed s) (ha : Instr.arm ∉ ops) (h : runOps P ops s = .next t) : Unarmed t := by
  induction ops generalizing s with
  | nil => cases h; exact hs
  | cons i is ih =>
    obtain ⟨u, hstep, hrun⟩ := runOps_cons_eq_next.mp h
    obtain ⟨hi, his⟩ := List.ne_and_not_mem_of_not_mem_cons ha
    have hu := unarmed_of_execWith hs hi.symm hstep
    exact ih (s := u.nextLine) ⟨hu.tmrIe, hu.adcIe, hu.convBusy, hu.dirOut, hu.duty⟩ his hrun

theorem Unarmed.outputs (hs : Unarmed s) : outputs s = ⟨0b00, 0x00, false⟩ := by
  have hwave : pwmOut s = false := pwmOut_eq_false_iff.mpr (by rw [hs.duty]; exact Nat.zero_le _)
  rw [Machine.outputs, hs.dirOut, hs.duty, hwave]

end Sys2Proof.Machine

namespace Sys2Proof.Proofs
open Sys2Proof.Machine

/-- Settles O37: by induction over the run the outputs are overwritten by the map of each sample served; the last one stays. -/
theorem outputsAreLastServedSample : Obligations.OutputsAreLastServedSample := by
  intro P ops s r t hreset hops hrun
  have hout := outputs_of_runOps hops hrun
  have hstart : (r.dirOut, r.duty) = (0b00, 0x00) := by cases hreset; rfl
  cases hlast : (servedSamples P ops r).getLast? with
  | none =>
    have hnone := List.getLast?_eq_none_iff.mp hlast
    rw [hnone, List.foldl_nil, hstart, Prod.mk.injEq] at hout
    obtain ⟨hd, hm⟩ := hout
    simp [hd, hm, hnone]
  | some v =>
    have hmap := outputs_of_getLast?_served hops hrun hlast
    have hsome : servedSamples P ops r ≠ [] := fun hnil => by simp [hnil] at hlast
    obtain ⟨hd, heven, hle⟩ := of_map_eq hmap
    refine ⟨.inr (hd.imp And.left And.left), heven, hle, iff_of_false ?_ hsome, ?_, ?_⟩
    · obtain ⟨hd, -⟩ | ⟨hd, -⟩ := hd <;> simp [hd]
    · obtain ⟨hd, -⟩ | ⟨hd, -⟩ := hd <;> simp [hd]
    · rintro w ⟨⟩
      refine ⟨hmap, fun h01 => ?_, fun h10 => ?_⟩
      · obtain ⟨-, hv⟩ | ⟨hd, -⟩ := hd
        · exact hv
        · simp [hd] at h01
      · obtain ⟨hd, -⟩ | ⟨-, hv⟩ := hd
        · simp [hd] at h10
        · exact hv

/-- Settles O39: PHASE says whose turn it is, and by induction over the run each step takes the turn or adds nothing. -/
theorem startsAndAppliesAlternate : Obligations.StartsAndAppliesAlternate := by
  intro P ops s r t hP hreset hops hrun
  obtain ⟨hcoupled, htogether⟩ := coupled_of_reset hreset
  have hturn : startNext r = true := by cases hreset; rfl
  exact ⟨_, history_of_runOps hrun, hturn ▸ alternates_of_runOps hP hcoupled htogether hops hrun⟩

/-- Settles O42: by induction over the run what is applied and what waits is the map of the samples kept; none waits at the
start. -/
theorem appliedPairsAreMappedSamples : Obligations.AppliedPairsAreMappedSamples := by
  intro P ops s r t hreset hrun
  obtain ⟨hcoupled, htogether⟩ := coupled_of_reset hreset
  have hr : waiting r = [] := by cases hreset; rfl
  have hsub := applied_sublist_of_runOps hrun
  rw [hr, List.nil_append] at hsub
  refine ⟨_, history_of_runOps hrun, (List.sublist_append_left _ _).trans hsub, fun hP hnone hclear => ?_⟩
  have heq := applied_eq_of_runOps hP hcoupled htogether hnone hrun
  rwa [hr, List.nil_append, waiting_of_adcIf_clear hclear, List.map_nil, List.append_nil] at heq

/-- Settles O45: a RESET leaves the block unarmed, and by induction over the run only ARM ends that. -/
theorem nothingIsServicedBeforeArm : Obligations.NothingIsServicedBeforeArm := by
  intro P ops s r t hreset hops hrun
  have ht : Unarmed t := unarmed_of_runOps (unarmed_of_reset hreset) hops hrun
  refine ⟨fun h => ht.not_timerServiceable h.1, fun h => ht.not_adcServiceable h.1,
    fun h => h.elim ht.not_timerServiceable ht.not_adcServiceable, fun v h => ?_, ht.outputs⟩
  exact nomatch ht.convBusy.symm.trans h

end Sys2Proof.Proofs
end

