-- ==== Sys2Proof/Proofs/Liveness.lean ====
section
/-! SUPPORT. Liveness (spec/60_exceptions.md R113; spec/70_reset_and_hazards.md R132): what an armed and coupled execution keeps from a
state on, how a flag that falls was serviced, and the chain period, start, DONE, apply under the fairness assumptions. -/
namespace Sys2Proof.Machine

/-! ### First occurrences -/

/-- Of the positions from `n` on with a property there is a first one. -/
theorem exists_first {p : Nat → Prop} {n : Nat} (h : ∃ m, n ≤ m ∧ p m) :
    ∃ m, n ≤ m ∧ p m ∧ ∀ j, n ≤ j → j < m → ¬ p j := by
  classical
  obtain ⟨hle, hp⟩ := Nat.find_spec h
  exact ⟨Nat.find h, hle, hp, fun j hj hlt hpj => Nat.find_min h hlt ⟨hj, hpj⟩⟩

theorem adres_of_done {P : Params} {v : Sample} {s t : State} (h : execWith P (.done v) s = .next t) : t.adres = v := by
  obtain ⟨-, ht⟩ := guarded_eq_next.mp h
  cases ht
  rfl

/-- Only DONE and RESET write ADRES. -/
theorem adres_of_execWith {P : Params} {i : Instr} {s t : State} (h : execWith P i s = .next t) (hd : ¬ ∃ v, i = .done v)
    (hr : i ≠ .reset) : t.adres = s.adres := by
  refine BitVec.eq_of_toNat_eq (untouched_of_execWith h .adres ?_)
  cases i with
  | done v => exact absurd ⟨v, rfl⟩ hd
  | reset => exact absurd rfl hr
  | idle | tick | svct | svca | svc | arm | pwmck => decide

namespace Execution
variable {P : Params} (e : Execution P) {n m k : Nat}

/-! ### What holds from a state on -/

/-- From step `n` on the block is armed and coupled, and no RESET is taken. -/
structure Running (n : Nat) : Prop where
  noReset : e.NoResetFrom n
  coupled : ∀ m, n ≤ m → SchedulerCoupled (e.st m)
  armed : ∀ m, n ≤ m → (e.st m).tmrIe = true ∧ (e.st m).adcIe = true

variable {e}

/-- Without RESET both enables stay set. -/
theorem armed_of_noReset (hr : e.NoResetFrom n) (ht : (e.st n).tmrIe = true) (ha : (e.st n).adcIe = true) (hm : n ≤ m) :
    (e.st m).tmrIe = true ∧ (e.st m).adcIe = true := by
  induction m, hm using Nat.le_induction with
  | base => exact ⟨ht, ha⟩
  | succ m hm ih =>
    obtain ⟨ht', ha'⟩ := ih
    obtain ⟨-, hnext⟩ | ⟨hi, -⟩ | ⟨htk, hak⟩ := enables_of_execWith (e.follows m)
    · exact hnext
    · exact absurd hi (hr m hm)
    · exact ⟨htk.trans ht', hak.trans ha'⟩

/-- Armed and coupled once, and without RESET, is armed and coupled for ever, unless a Restart intervenes. -/
theorem running_of_start (hP : P.policy ≠ .restart) (hr : e.NoResetFrom n) (hs : SchedulerCoupled (e.st n))
    (ht : (e.st n).tmrIe = true) (ha : (e.st n).adcIe = true) : e.Running n where
  noReset := hr
  armed m hm := armed_of_noReset hr ht ha hm
  coupled m hm := by
    induction m, hm using Nat.le_induction with
    | base => exact hs
    | succ m hm ih =>
      obtain ⟨htm, ham⟩ := armed_of_noReset hr ht ha hm
      exact schedulerCoupled_of_execWith (.inl hP) ih (htm.trans ham.symm) (e.follows m)

theorem Running.mono (hrun : e.Running n) (hm : n ≤ m) : e.Running m :=
  ⟨fun j hj => hrun.noReset j (hm.trans hj), fun j hj => hrun.coupled j (hm.trans hj), fun j hj => hrun.armed j (hm.trans hj)⟩

/-! ### Flags along an execution -/

/-- What only the steps in `ends` can end holds over a stretch that has none of them. -/
theorem holds_through {q : State → Prop} {ends : Nat → Prop}
    (hkeep : ∀ j, n ≤ j → q (e.st j) → ¬ ends j → q (e.st (j + 1)))
    (hn : q (e.st n)) (hm : n ≤ m) (hnone : ∀ j, n ≤ j → j < m → ¬ ends j) : q (e.st m) := by
  induction m, hm using Nat.le_induction with
  | base => exact hn
  | succ m hm ih =>
    exact hkeep m hm (ih fun j hj hlt => hnone j hj (hlt.trans (Nat.lt_succ_self m))) (hnone m hm (Nat.lt_succ_self m))

theorem Running.tmrIf_succ (hrun : e.Running n) (hm : n ≤ m) (h : (e.st m).tmrIf = true) (hk : ¬ e.Takes .timer m) :
    (e.st (m + 1)).tmrIf = true := tmrIf_of_execWith (e.follows m) h hk (hrun.noReset m hm)

theorem Running.adcIf_succ (hrun : e.Running n) (hm : n ≤ m) (h : (e.st m).adcIf = true) (hk : ¬ e.Takes .adc m) :
    (e.st (m + 1)).adcIf = true := by
  by_contra hclear
  obtain hk' | hi := (adcIf_flagStep (e.follows m)).cleared_of_fall h (Bool.eq_false_of_not_eq_true hclear)
  · exact hk hk'
  · exact hrun.noReset m hm hi

theorem Running.convBusy_succ (hrun : e.Running n) (hm : n ≤ m) (h : (e.st m).convBusy = true)
    (hdone : ¬ ∃ v, e.op m = .done v) : (e.st (m + 1)).convBusy = true := by
  by_contra hclear
  obtain hd | hi := (convBusy_flagStep (e.follows m)).cleared_of_fall h (Bool.eq_false_of_not_eq_true hclear)
  · exact hdone hd
  · exact hrun.noReset m hm hi

/-- A completed conversion is serviced: as long as it waits its source is serviceable. -/
theorem Running.exists_takes_adc (hrun : e.Running n) (hfair : e.HandlerFair) (h : (e.st n).adcIf = true) :
    ∃ k, n ≤ k ∧ e.Takes .adc k := by
  by_contra hnone
  have hnever : ∀ j, n ≤ j → ¬ e.Takes .adc j := fun j hj hk => hnone ⟨j, hj, hk⟩
  have hserviceable : ∀ m, n ≤ m → adcServiceable (e.st m) = true := fun m hm =>
    have hif := holds_through (q := (State.adcIf · = true)) (fun j hj => hrun.adcIf_succ hj) h hm fun j hj _ => hnever j hj
    adcServiceable_iff.mpr ⟨hif, (hrun.armed m hm).2⟩
  exact hnone (hfair.2 n hserviceable)

/-- A conversion in flight ends in a DONE: under Drop and Defer no start request comes while PHASE is Converting. -/
theorem Running.exists_done (hrun : e.Running n) (hP : P.policy ≠ .restart) (hprogress : e.ConverterProgress)
    (h : (e.st n).convBusy = true) : ∃ m, n ≤ m ∧ ∃ v, e.op m = .done v := by
  obtain ⟨m, hm, hd | hstart | hreset⟩ := hprogress n h
  · exact ⟨m, hm, hd⟩
  · by_contra hnone
    have hbusy : (e.st m).convBusy = true :=
      holds_through (q := (State.convBusy · = true)) (fun j hj => hrun.convBusy_succ hj) h hm
        fun j hj _ hd => hnone ⟨j, hj, hd⟩
    have hphase : (e.st m).phase = .converting := (hrun.coupled m hm).2.mpr (.inl hbusy)
    obtain ⟨-, hidle | hrestart⟩ := (adcStartPulse_iff (e.follows m)).mp hstart
    · exact nomatch hphase.symm.trans hidle
    · exact hP hrestart
  · exact absurd hreset (hrun.noReset m hm)

/-- While a completed conversion waits ADRES holds its sample: in a coupled state no DONE can come. -/
theorem Running.adres_succ (hrun : e.Running n) (hm : n ≤ m) (h : (e.st m).adcIf = true) :
    (e.st (m + 1)).adres = (e.st m).adres := by
  refine adres_of_execWith (e.follows m) (fun ⟨v, hv⟩ => ?_) (hrun.noReset m hm)
  have hbusy : Enabled P (.done v) (e.st m) := hv ▸ enabled_of_execWith (e.follows m)
  exact nomatch ((hrun.coupled m hm).adcIf_of_convBusy hbusy).symm.trans h

/-- The first service after a completed conversion applies the sample of that conversion. -/
theorem Running.outputs_of_first_takes_adc {v : Sample} (hrun : e.Running n) (hif : (e.st n).adcIf = true)
    (hv : (e.st n).adres = v) (hk : n ≤ k) (htakes : e.Takes .adc k) (hfirst : ∀ j, n ≤ j → j < k → ¬ e.Takes .adc j) :
    ((e.st (k + 1)).dirOut, (e.st (k + 1)).duty) = map v := by
  have hwaits : (e.st k).adcIf = true ∧ (e.st k).adres = v :=
    holds_through (q := fun s => s.adcIf = true ∧ s.adres = v)
      (fun j hj ⟨hifj, hvj⟩ hn => ⟨hrun.adcIf_succ hj hifj hn, (hrun.adres_succ hj hifj).trans hvj⟩) ⟨hif, hv⟩ hk hfirst
  rw [outputs_of_takes_adc (e.follows k) htakes, hwaits.2]

/-- While PHASE is Converting, a conversion-complete service comes. -/
theorem Running.exists_takes_adc_of_converting (hrun : e.Running n) (hP : P.policy ≠ .restart) (hfair : e.HandlerFair)
    (hprogress : e.ConverterProgress) (h : (e.st n).phase = .converting) : ∃ k, n ≤ k ∧ e.Takes .adc k := by
  obtain hbusy | hif := (hrun.coupled n le_rfl).2.mp h
  · obtain ⟨m, hm, v, hv⟩ := hrun.exists_done hP hprogress hbusy
    have hif : (e.st (m + 1)).adcIf = true := (adcIf_flagStep (e.follows m)).set ⟨v, hv⟩
    obtain ⟨k, hk, htakes⟩ := (hrun.mono (m := m + 1) (by omega)).exists_takes_adc hfair hif
    exact ⟨k, by omega, htakes⟩
  · exact hrun.exists_takes_adc hfair hif

/-- A waiting period leads to PHASE Converting: until then its source is serviceable, also under Defer. -/
theorem Running.exists_converting (hrun : e.Running n) (hfair : e.HandlerFair) (h : (e.st n).tmrIf = true) :
    ∃ m, n ≤ m ∧ (e.st m).phase = .converting := by
  by_contra hnone
  have hidle : ∀ m, n ≤ m → (e.st m).phase = .idle := fun m hm => by
    cases hphase : (e.st m).phase with
    | idle => rfl
    | converting => exact absurd ⟨m, hm, hphase⟩ hnone
  have hnever : ∀ j, n ≤ j → ¬ e.Takes .timer j := fun j hj hk =>
    hnone ⟨j + 1, by omega, phase_of_timer (e.follows j) hk⟩
  have hserviceable : ∀ m, n ≤ m → timerServiceable P (e.st m) = true := fun m hm =>
    have hif := holds_through (q := (State.tmrIf · = true)) (fun j hj => hrun.tmrIf_succ hj) h hm fun j hj _ => hnever j hj
    timerServiceable_iff.mpr ⟨hif, (hrun.armed m hm).1, fun _ => hidle m hm⟩
  obtain ⟨j, hj, hk⟩ := hfair.1 n hserviceable
  exact hnever j hj hk

end Execution

/-! ### Starvation under Restart (R132) -/

section
variable {P : Params} {s t : State}

/-- `TICK ; SVCT` restarts the conversion in flight: one more start request, and nothing else but the line number. -/
theorem runOps_restart (is : List Instr) (hP : P.policy = .restart) (hie : s.tmrIe = true) (hphase : s.phase = .converting)
    (hif : s.adcIf = false) (hrest : runOps P is { (s.setTmrIf false).requestConversion with line := s.line + 2 } = .next t) :
    runOps P (.tick :: .svct :: is) s = .next t :=
  runOps_cons_next rfl <| runOps_cons_next
    (svctWith_restarted rfl hie hphase (fun h => not_adcServiceable_of_adcIf_clear hif h.2) hP) hrest

theorem runOps_restarts (n : Nat) (hP : P.policy = .restart) (hie : s.tmrIe = true) (hphase : s.phase = .converting)
    (hbusy : s.convBusy = true) (hif : s.adcIf = false) :
    ∃ t, runOps P (List.replicate n [Instr.tick, Instr.svct]).flatten s = .next t ∧
      t.history = s.history ++ List.replicate n .adcStart ∧ t.dirOut = s.dirOut ∧ t.duty = s.duty ∧
      t.convBusy = true ∧ t.adcIf = false := by
  induction n generalizing s with
  | zero => exact ⟨s, rfl, (List.append_nil _).symm, rfl, rfl, hbusy, hif⟩
  | succ n ih =>
    obtain ⟨t, hrun, hhistory, hrest⟩ :=
      ih (s := { (s.setTmrIf false).requestConversion with line := s.line + 2 }) hie hphase rfl hif
    refine ⟨t, runOps_restart _ hP hie hphase hif hrun, ?_, hrest⟩
    rw [hhistory, List.replicate_succ]
    exact List.append_assoc ..

end

end Sys2Proof.Machine

namespace Sys2Proof.Proofs
open Sys2Proof.Machine

/-- Settles O52: the first DONE ends the conversion in flight; its sample waits, unchanged, for the first service after it. -/
theorem startedConversionIsApplied : Obligations.StartedConversionIsApplied := by
  intro P e n hP hfair hprogress hreset hcoupled htie haie hbusy
  have hrun : e.Running n := Execution.running_of_start hP hreset hcoupled htie haie
  obtain ⟨m, hm, ⟨v, hv⟩, hfirst⟩ := exists_first (hrun.exists_done hP hprogress hbusy)
  have hrun' : e.Running (m + 1) := hrun.mono (by omega)
  have hif : (e.st (m + 1)).adcIf = true := (adcIf_flagStep (e.follows m)).set ⟨v, hv⟩
  obtain ⟨k, hk, htakes, hfirst'⟩ := exists_first (hrun'.exists_takes_adc hfair hif)
  have hadres : (e.st (m + 1)).adres = v := adres_of_done (hv ▸ e.follows m)
  exact ⟨m, v, k, hm, hv, fun j hj hlt w hw => hfirst j hj hlt ⟨w, hw⟩, hk, htakes, hfirst',
    hrun'.outputs_of_first_takes_adc hif hadres hk htakes hfirst'⟩

/-- Settles O53: a TICK leads to a waiting period, that to PHASE Converting, and that to a conversion-complete service. -/
theorem samplingNeverStarvesWithoutRestart : Obligations.SamplingNeverStarvesWithoutRestart := by
  intro P e n hP hfair hprogress htimer hreset hcoupled htie haie m hm
  have hrun : e.Running n := Execution.running_of_start hP hreset hcoupled htie haie
  obtain ⟨j, hj, htick⟩ := htimer m
  have hpending : (e.st (j + 1)).tmrIf = true := (tmrIf_flagStep (e.follows j)).set htick
  obtain ⟨l, hl, hconverting⟩ := (hrun.mono (m := j + 1) (by omega)).exists_converting hfair hpending
  obtain ⟨k, hk, htakes⟩ := (hrun.mono (m := l) (by omega)).exists_takes_adc_of_converting hP hfair hprogress hconverting
  exact ⟨k, by omega, htakes⟩

/-- Settles O54: by induction over the number of restarts, each of which leaves all but the history and the line as it was. -/
theorem restartCanStarve : Obligations.RestartCanStarve := fun _ n _ hP hie hphase hbusy hif =>
  runOps_restarts n hP hie hphase hbusy hif

end Sys2Proof.Proofs
end

