-- ==== Sys2Proof/Proofs/Waveform.lean ====
section
/-! SUPPORT. The waveform (spec/42_output.md R95, R96): `pwm_out` count by count, and one whole period of it. -/
namespace Sys2Proof.Machine
variable {P : Params} {s : State}

/-- The samples of `pwm_out` in closed form: the count modulo the period against DUTY. -/
theorem pwmWave_eq (n : Nat) (h : PwmInRange P s) :
    pwmWave P n s = (List.range n).map fun j => decide ((s.pwmcnt + j) % P.pwmPeriod < s.duty.toNat) := by
  induction n generalizing s with
  | zero => rfl
  | succ n ih =>
    have hcounted : PwmInRange P (s.setPwmcnt ((s.pwmcnt + 1) % P.pwmPeriod)) := Nat.mod_lt _ (Nat.zero_lt_of_lt h)
    have hrest := ih hcounted
    simp only [State.setPwmcnt_pwmcnt, State.setPwmcnt_duty, Nat.mod_add_mod, Nat.add_assoc, Nat.add_comm 1] at hrest
    have hfirst : (s.pwmcnt + 0) % P.pwmPeriod = s.pwmcnt := Nat.mod_eq_of_lt h
    rw [List.range_succ_eq_map, List.map_cons, List.map_map, hfirst]
    exact congrArg (pwmOut s :: ·) hrest

/-- The counts below a bound come first. -/
theorem map_range_lt (n d : Nat) : ((List.range n).map fun j => decide (j < d)) =
    List.replicate (min d n) true ++ List.replicate (n - min d n) false := by
  induction n with
  | zero => simp
  | succ n ih =>
    rw [List.range_succ, List.map_append, ih]
    by_cases hn : n < d
    · have hmin : min d n = n := by omega
      simp [hmin, hn, List.replicate_succ']
    · have hmin : min d n = d := by omega
      have hmin' : min d (n + 1) = d := by omega
      have hsub : n + 1 - d = n - d + 1 := by omega
      simp [hmin, hmin', hn, hsub, List.replicate_succ']

end Sys2Proof.Machine

namespace Sys2Proof.Proofs
open Sys2Proof.Machine

/-- Settles O50: over one period from count 0 the counts are 0 to PWM_PERIOD - 1, the ones below DUTY first. -/
theorem waveformHighTimeIsDuty : Obligations.WaveformHighTimeIsDuty := by
  intro P s hcnt
  obtain hperiod | hperiod := Nat.eq_zero_or_pos P.pwmPeriod
  · simp [hperiod, pwmWave]
  · have hrange : PwmInRange P s := by rwa [PwmInRange, hcnt]
    have hcounts : pwmWave P P.pwmPeriod s = (List.range P.pwmPeriod).map fun j => decide (j < s.duty.toNat) := by
      rw [pwmWave_eq _ hrange]
      refine List.map_congr_left fun j hj => ?_
      rw [hcnt, Nat.zero_add, Nat.mod_eq_of_lt (List.mem_range.mp hj)]
    rw [hcounts, map_range_lt]

end Sys2Proof.Proofs
end

