-- ==== Sys2Proof/Proofs/Pseudo.lean ====
section
/-! SUPPORT. The pseudo-operations BOOT, SAMPLE and PWMRUN (spec/30_encoding.md R49, R50): their words, and the state each expansion
runs to, in closed form; then any sequence of samples, and texts of traces. -/
namespace Sys2Proof.Machine
variable {P : Params} {s : State}

/-! ### Words (R50) -/

theorem wordsOf_pwmrun (n : Nat) : wordsOf [.pwmrun n] = List.replicate n 0x700 := by
  rw [wordsOf, List.flatMap_singleton, TraceLine.expand, List.map_replicate]
  rfl

/-- A DONE word is `0x200` and its operand. -/
theorem encode_done_ofNat {n : Nat} (h : n ≤ 255) : encode (.done (BitVec.ofNat 8 n)) = 0x200 + BitVec.ofNat 12 n := by
  have hword : (0x200 + BitVec.ofNat 12 n).toNat = 512 + n := by
    rw [BitVec.toNat_add, BitVec.toNat_ofNat]
    show (512 + n % 4096) % 4096 = 512 + n
    omega
  refine encode_done_iff.mpr ⟨BitVec.eq_of_toNat_eq ?_, BitVec.eq_of_toNat_eq ?_⟩
  · rw [opField_toNat, hword]
    show (512 + n) / 256 = 2
    omega
  · rw [argField_toNat, hword, BitVec.toNat_ofNat]
    omega

theorem wordsOf_sample {n : Nat} (h : n ≤ 255) :
    wordsOf [.sample n] = [0x100, 0x300, 0x200 + BitVec.ofNat 12 n, 0x400] := by
  rw [← encode_done_ofNat h]
  rfl

/-! ### Runs (R50, R124) -/

theorem runOps_boot (s : State) : ∃ t, runOps P (TraceLine.expand .boot) s = .next t ∧ BootState t :=
  ⟨_, rfl, rfl, rfl, rfl, rfl, rfl, rfl⟩

/-- The state after `SAMPLE a` from an armed state at rest. -/
def sampled (a : Sample) (s : State) : State :=
  { s with
    tmrIf := false, adres := a, dirOut := (map a).1, duty := (map a).2
    history := s.history ++ [.adcStart] ++ [.apply (map a).1 (map a).2], line := s.line + 4 }

/-- `TICK ; SVCT ; DONE a ; SVCA` puts every register but the four it is about back to where it was. -/
theorem runOps_sample (v : Nat) (htie : s.tmrIe = true) (haie : s.adcIe = true) (hphase : s.phase = .idle)
    (hif : s.adcIf = false) (hbusy : s.convBusy = false) :
    runOps P (TraceLine.expand (.sample v)) s = .next (sampled (BitVec.ofNat 8 v) s) := by
  cases s
  subst htie haie hphase hif hbusy
  exact runOps_cons_next rfl <|
    runOps_cons_next (svctWith_of_idle rfl rfl rfl fun h => not_adcServiceable_of_adcIf_clear rfl h.2) <|
    runOps_cons_next (execDone_of_busy (BitVec.ofNat 8 v) rfl) <|
    runOps_cons_next (svcaWith_of_serviceable rfl rfl fun h => not_timerServiceable_of_tmrIf_clear rfl h.2) rfl

theorem untouched_sampled (a : Sample) : Untouched [.tmrIf, .adres, .dirOut, .duty] s (sampled a s) := by
  intro r hr
  cases r with
  | tmrIf | adres | dirOut | duty => exact absurd (by decide) hr
  | phase | adcIf | tmrIe | adcIe | convBusy | pwmcnt => rfl

theorem bootState_sampled (a : Sample) (h : BootState s) : BootState (sampled a s) := by
  obtain ⟨htie, haie, hphase, -, hif, hbusy⟩ := h
  exact ⟨htie, haie, hphase, rfl, hif, hbusy⟩

/-! ### Any sequence of samples (R129) -/

theorem runOps_samples (vs : List Sample) (h : BootState s) :
    ∃ t, runOps P (vs.flatMap fun v => TraceLine.expand (.sample v.toNat)) s = .next t ∧ BootState t ∧
      t.history = s.history ++ vs.flatMap fun v => [.adcStart, .apply (dirbits (direction v)) (magnitude v)] := by
  induction vs generalizing s with
  | nil => exact ⟨s, rfl, h, (List.append_nil _).symm⟩
  | cons v vs ih =>
    have hnext : BootState (sampled v s) := bootState_sampled v h
    obtain ⟨htie, haie, hphase, -, hif, hbusy⟩ := h
    have hsample : runOps P (TraceLine.expand (.sample v.toNat)) s = .next (sampled v s) := by
      rw [runOps_sample v.toNat htie haie hphase hif hbusy, BitVec.ofNat_toNat, BitVec.setWidth_eq]
    obtain ⟨t, hrun, hboot, hhistory⟩ := ih hnext
    refine ⟨t, ?_, hboot, ?_⟩
    · rw [List.flatMap_cons, runOps_append, hsample, onNext_of_next, hrun]
    · rw [hhistory, List.flatMap_cons, ← List.append_assoc]
      exact congrArg (· ++ _) (List.append_assoc ..)

end Sys2Proof.Machine

namespace Sys2Proof.Proofs
open Sys2Proof.Machine

/-- Settles O43: each expansion run in closed form. -/
theorem pseudoOperationsExpand : Obligations.PseudoOperationsExpand := by
  refine ⟨rfl, wordsOf_pwmrun, fun n => wordsOf_sample, fun P => runOps_boot, fun P n s hrange => ?_,
    fun P v s hv htie haie hphase hif hbusy => ?_⟩
  · refine ⟨_, runOps_pwmck n hrange, rfl, fun r hr => ?_, rfl⟩
    cases r with
    | pwmcnt => exact absurd (by decide) hr
    | adres | dirOut | duty | phase | tmrIf | adcIf | tmrIe | adcIe | convBusy => rfl
  · refine ⟨_, runOps_sample v htie haie hphase hif hbusy, rfl, ?_, rfl, untouched_sampled _, List.append_assoc ..⟩
    show v % 256 = v
    omega

/-- Settles O44: by induction over the samples, each run from a boot state to a boot state. -/
theorem sampleSequenceIsAppliedPointwise : Obligations.SampleSequenceIsAppliedPointwise :=
  fun _ vs _ => runOps_samples vs

/-- Settles O55: the texts by evaluation; the first trace is the run of BOOT, which leaves no conversion in flight for a DONE, the
second has an invalid word. -/
theorem traceTextAssembles : Obligations.TraceTextAssembles := by
  refine ⟨by decide, by decide, by decide, by decide, by decide, by decide, by decide, by decide, by decide, fun s => ?_,
    fun s => runTrace_of_firstInvalid rfl⟩
  exact (runTrace_of_encoded [.reset, .arm, .done 5] s).trans rfl

end Sys2Proof.Proofs
end
